-- ==== Sys2Proof/Word.lean ====
section
/-! DEFINITION. Word: the widths of the block's values (00_scope.md R9, R10). Every value is unsigned. -/

namespace Sys2Proof

/-- A wire byte, a scan-buffer cell or a counter: 8 bits, unsigned (00_scope.md R9). -/
abbrev Byte := BitVec 8

/-- A value of the millisecond time base: `TIME_BITS` = 32 bits, unsigned, wrapping (00_scope.md R8, R9). -/
abbrev Time := BitVec 32

/-- The 16-bit event word that names one operation (30_encoding.md R79). -/
abbrev EventWord := BitVec 16

/-- The cursor `rx_cur`: 3 bits (10_state.md R22). -/
abbrev Cursor := BitVec 3

end Sys2Proof
end

