-- ==== Sys2Proof/Config.lean ====
section
/-! DEFINITION. Config: the parameters of 00_scope.md R8 with this hardware's values. All are constants fixed at
build time; none is writable at run time (10_state.md R33). -/

namespace Sys2Proof.Config

/-- `RXBUF_LEN`: capacity of the inbound scan buffer in bytes. -/
def rxbufLen : Nat := 5

/-- `DELIM0`: first delimiter byte. -/
def delim0 : Byte := 0xFE

/-- `DELIM1`: second delimiter byte. -/
def delim1 : Byte := 0xFF

/-- `IN_FRAME_LEN`: bytes of an inbound frame, delimiter included (30_encoding.md R71). -/
def inFrameLen : Nat := 5

/-- `OUT_FRAME_LEN`: bytes of an outbound frame, delimiter included (30_encoding.md R72). -/
def outFrameLen : Nat := 8

/-- `SERIAL_TIMEOUT_MS`: link timeout in milliseconds. -/
def serialTimeoutMs : Nat := 2000

/-- `TX_PERIOD_MS`: transmit period in milliseconds. -/
def txPeriodMs : Nat := 500

/-- `COUNTER_MOD`: the action counters wrap to 0 on reaching this value. -/
def counterMod : Nat := 254

/-- `TIME_BITS`: the width of `Time`. -/
def timeBits : Nat := 32

/-- `BAUD`: UART line rate. Informative: the physical layer is outside the block (00_scope.md R6 (d)). -/
def baud : Nat := 9600

/-- `DEBOUNCE_MS`: busy-wait of the external Input Sampler per edge. Informative (43_request_state.md R158). -/
def debounceMs : Nat := 100

/-- `INIT_LINK_UP`: reset value of `link_up`; Down for this hardware (decision D5). -/
def initLinkUp : Bool := false

/-- What a camera or microphone press inverts: the request bit, or the confirmed bit (decision D11). -/
inductive ToggleBasis where
  | request
  | confirmed
deriving DecidableEq, Repr

/-- `TOGGLE_BASIS`: `REQUEST` for this hardware (decision D11). -/
def toggleBasis : ToggleBasis := .request

/-- `RX_FIFO_DEPTH`: depth of the UART receive buffer ahead of the block. OPEN in the spec (decision D15), so it has
no value here. No operation reads it: lost bytes never reach `RXB` (70_reset_and_hazards.md R194). -/
opaque rxFifoDepth : Nat

end Sys2Proof.Config
end

