-- ==== Sys2Proof/Syntax.lean ====
section
/-! DEFINITION. Syntax: the closed set of operations (00_scope.md R2), the reasons a word is none, events, and the
lines of a trace (30_encoding.md R79 to R87). -/

namespace Sys2Proof

/-- One constructor per row of the operation table (30_encoding.md R82). -/
inductive Instr where
  | rxb (b : Byte)
  | wdt
  | txc
  | btnCam
  | btnMic
  | btnPlus
  | btnMinus
  | btnShot
  | rst
deriving DecidableEq, Repr

/-- Why a word is not an operation: the four cases of 30_encoding.md R83. -/
inductive DecodeReject where
  /-- `op` is 0x0 or 0x5 to 0xE (R80). -/
  | reservedOp
  /-- Bits 11 to 8 are not 0000 (R79). -/
  | nonzeroZ
  /-- `data` is not 0x00 for `WDT`, `TXC` or `RST` (R81). -/
  | nonzeroData
  /-- `data` is above 0x04 for `BTN` (R81). -/
  | reservedButton
deriving DecidableEq, Repr

/-- What decoding a word gives: an operation, or a rejection by name (30_encoding.md R83). -/
inductive Decoded where
  | op (i : Instr)
  | rejected (why : DecodeReject)
deriving DecidableEq, Repr

/-- One event of a trace: an event word presented together with the time input (30_encoding.md R79). -/
structure Event where
  now  : Time
  word : EventWord
deriving DecidableEq, Repr

/-- The pseudo-operations of the trace syntax (30_encoding.md R87). -/
inductive Pseudo where
  | rxFrame (c m : Byte)
  | rxFrameK (c m k : Byte)
  | rxRaw (bytes : List Byte)
  | idle
deriving DecidableEq, Repr

/-- What a trace line names: an operation (30_encoding.md R86) or a pseudo-operation (R87). -/
inductive TraceItem where
  | op (i : Instr)
  | pseudo (p : Pseudo)
deriving DecidableEq, Repr

/-- One line of a trace: an optional `@<now>` and an item (30_encoding.md R86). -/
structure TraceLine where
  stamp : Option Nat
  item  : TraceItem
deriving DecidableEq, Repr

end Sys2Proof
end

