-- ==== Sys2Proof/WellFormed.lean ====
section
/-! DEFINITION. WellFormed: which operations, pseudo-operations and trace lines are well formed. -/

namespace Sys2Proof

/-- Every operation is well formed: the only operand is the byte of `RXB`, and every byte is a legal one
(30_encoding.md R81, R84 (c)). -/
def Instr.wf : Instr → Bool
  | .rxb _ => true
  | .wdt => true
  | .txc => true
  | .btnCam => true
  | .btnMic => true
  | .btnPlus => true
  | .btnMinus => true
  | .btnShot => true
  | .rst => true

/-- `RXRAW b1, ..., bn` names at least one byte (30_encoding.md R87). -/
def Pseudo.wf : Pseudo → Bool
  | .rxFrame _ _ => true
  | .rxFrameK _ _ _ => true
  | .rxRaw bytes => !bytes.isEmpty
  | .idle => true

/-- An operation or pseudo-operation of a trace line is well formed. -/
def TraceItem.wf : TraceItem → Bool
  | .op i => i.wf
  | .pseudo p => p.wf

/-- A trace line is well formed when its item is and its `@<now>` fits the `TIME_BITS` of the time input
(30_encoding.md R86; 10_state.md R35). -/
def TraceLine.wf (l : TraceLine) : Bool :=
  l.item.wf && (match l.stamp with | none => true | some t => decide (t < 2 ^ Config.timeBits))

end Sys2Proof
end

