-- ==== Sys2Proof/Decode.lean ====
section
/-! DEFINITION. Decode: the event word's decoder, total on all 65536 words (30_encoding.md R83), the encoder, and the
operation table's rows (R82). -/

namespace Sys2Proof

/-- Bits 15:12, the operation class (30_encoding.md R79). -/
def opField (w : EventWord) : BitVec 4 := w.extractLsb' 12 4

/-- Bits 11:8, must be 0000 (30_encoding.md R79). -/
def zField (w : EventWord) : BitVec 4 := w.extractLsb' 8 4

/-- Bits 7:0, the operand byte (30_encoding.md R79). -/
def dataField (w : EventWord) : Byte := w.extractLsb' 0 8

/-- An operation class whose `data` must be 0x00: `WDT`, `TXC`, `RST` (30_encoding.md R81). -/
def decodeBare (i : Instr) (data : Byte) : Decoded :=
  if data = 0x00 then .op i else .rejected .nonzeroData

/-- Which button (30_encoding.md R81). -/
def decodeButton (data : Byte) : Decoded :=
  if data = 0x00 then .op .btnCam
  else if data = 0x01 then .op .btnMic
  else if data = 0x02 then .op .btnPlus
  else if data = 0x03 then .op .btnMinus
  else if data = 0x04 then .op .btnShot
  else .rejected .reservedButton

/-- The decoder (30_encoding.md R80 to R83). DESIGN CHOICE (log 9): of several defects, the first of `op`, `z`,
`data` is the one named; which words are refused does not depend on it. -/
def decode (w : EventWord) : Decoded :=
  if opField w = 0x1 then (if zField w = 0 then .op (.rxb (dataField w)) else .rejected .nonzeroZ)
  else if opField w = 0x2 then (if zField w = 0 then decodeBare .wdt (dataField w) else .rejected .nonzeroZ)
  else if opField w = 0x3 then (if zField w = 0 then decodeBare .txc (dataField w) else .rejected .nonzeroZ)
  else if opField w = 0x4 then (if zField w = 0 then decodeButton (dataField w) else .rejected .nonzeroZ)
  else if opField w = 0xF then (if zField w = 0 then decodeBare .rst (dataField w) else .rejected .nonzeroZ)
  else .rejected .reservedOp

/-- An event word from its three fields, `op` in the most significant place (30_encoding.md R79). -/
def eventWord (op : BitVec 4) (data : Byte) : EventWord := op ++ 0#4 ++ data

/-- The encoder: the event word of an operation (30_encoding.md R80, R81). -/
def encode : Instr → EventWord
  | .rxb b => eventWord 0x1 b
  | .wdt => eventWord 0x2 0x00
  | .txc => eventWord 0x3 0x00
  | .btnCam => eventWord 0x4 0x00
  | .btnMic => eventWord 0x4 0x01
  | .btnPlus => eventWord 0x4 0x02
  | .btnMinus => eventWord 0x4 0x03
  | .btnShot => eventWord 0x4 0x04
  | .rst => eventWord 0xF 0x00

/-- A row of the operation table: its match and mask columns (30_encoding.md R82). -/
def rowOf : Instr → EventWord × EventWord
  | .rxb _ => (0x1000, 0xFF00)
  | .wdt => (0x2000, 0xFFFF)
  | .txc => (0x3000, 0xFFFF)
  | .btnCam => (0x4000, 0xFFFF)
  | .btnMic => (0x4001, 0xFFFF)
  | .btnPlus => (0x4002, 0xFFFF)
  | .btnMinus => (0x4003, 0xFFFF)
  | .btnShot => (0x4004, 0xFFFF)
  | .rst => (0xF000, 0xFFFF)

/-- The word matches the row of that operation: `w AND mask = match` (30_encoding.md R82). -/
def matchesRow (w : EventWord) (i : Instr) : Bool := w &&& (rowOf i).2 == (rowOf i).1

/-- The table's rows, each as a (match, mask) pair, in the table's order (30_encoding.md R82). -/
def opcodeRows : List (EventWord × EventWord) :=
  [rowOf (.rxb 0), rowOf .wdt, rowOf .txc, rowOf .btnCam, rowOf .btnMic, rowOf .btnPlus, rowOf .btnMinus,
    rowOf .btnShot, rowOf .rst]

/-- The operation the decoder reads from a table word of `nbits` bits. An event word has 16 bits (30_encoding.md R85);
a shorter `nbits` leaves the bits above it 0. -/
def decodeTableWord (nbits w : Nat) : Option Instr :=
  match decode (BitVec.ofNat 16 (w % 2 ^ nbits)) with
  | .op i => some i
  | .rejected _ => none

end Sys2Proof
end

