-- ==== Sys2Proof/Machine/State.lean ====
section
/-! DEFINITION. Machine/State: the whole state of the block (10_state.md R20 to R40), the reasons a step stops, and
the state after reset. -/

namespace Sys2Proof.Machine

/-- The service-loop phase (10_state.md R30). -/
inductive Phase where
  /-- `P_RX`: draining received bytes. -/
  | rx
  /-- `P_IN`: watchdog done; sampling inputs and deciding to transmit. -/
  | input
deriving DecidableEq, Repr

/-- The scan buffer as (address, byte) pairs (20_memory.md R50), addresses strictly rising, no entry equal to what an
unlisted address reads as (log 2). -/
abbrev Memory := List Host.Cell

/-- All the state the spec gives the block, its time input, its output stream, and the events still to come. -/
structure State where
  /-- `rx_buf[0..4]`, the scan buffer (R21). -/
  rxBuf     : Memory
  /-- `rx_cur`, the cursor, 3 bits, legal values 0 to 4 (R22). -/
  rxCur     : Cursor
  /-- `rx_prev`, the byte most recently written into the buffer (R23). -/
  rxPrev    : Byte
  /-- `cam_active`, the host-confirmed camera state (R24). -/
  camActive : Bool
  /-- `mic_active`, the host-confirmed microphone state (R24). -/
  micActive : Bool
  /-- `link_up`, true = Up, false = Down; the only flag (R25, R32). -/
  linkUp    : Bool
  /-- `t_rx`, the time of the last accepted inbound frame (R26). -/
  tRx       : Time
  /-- `t_tx`, the time of the last emitted outbound frame (R27). -/
  tTx       : Time
  /-- `cam_req`, the camera request (R28). -/
  camReq    : Bool
  /-- `mic_req`, the microphone request (R28). -/
  micReq    : Bool
  /-- `plus_cnt`, legal values 0 to 253 (R29). -/
  plusCnt   : Byte
  /-- `minus_cnt`, legal values 0 to 253 (R29). -/
  minusCnt  : Byte
  /-- `shot_cnt`, legal values 0 to 253 (R29). -/
  shotCnt   : Byte
  /-- `phase`, the service-loop phase (R30). -/
  phase     : Phase
  /-- `now`, the time input as sampled by the operation being run (R35 (b)). -/
  now       : Time
  /-- `tx_out`, every byte handed to the UART transmitter, oldest first (R36). -/
  txOut     : List Byte
  /-- The events the environment has yet to present, oldest first. The model's own field (log 3). -/
  events    : List Event
deriving DecidableEq, Repr

/-- Why the model stops in a fault. Neither is reachable from reset (10_state.md R39). -/
inductive Fault where
  /-- Raised by `MemRead` and `MemWrite` on an index outside 0 to 4 (20_memory.md R51). Safe: the model stops. -/
  | bufferIndex (i : Nat)
  /-- Raised by `TXC` when it would emit a counter that holds 254 or 255 (30_encoding.md R75;
  93_implementation_defined.md). Safe: the model stops. -/
  | reservedCounter
deriving DecidableEq, Repr

/-- Why the model refuses a step. -/
inductive Refusal where
  /-- Raised by an arm of `exec` that has no meaning yet; no arm does. Safe: the model stops. -/
  | notModelled (mnemonic : String)
  /-- Raised by the presentation of an event whose word is no operation (30_encoding.md R83, decision D16). Safe. -/
  | notAnOperation (why : DecodeReject) (word : EventWord)
  /-- Raised by an operation presented outside the loop order (30_encoding.md R88, decision D3). Safe for every trace
  the loop can produce, since it produces no such event. -/
  | outOfPhase (required actual : Phase)
deriving DecidableEq, Repr

/-- The state `RST` establishes (10_state.md R40; 70_reset_and_hazards.md R190), with nothing emitted (log 5) and no
event presented (log 3). -/
def State.reset : State where
  rxBuf     := []
  rxCur     := 0
  rxPrev    := 0x00
  camActive := false
  micActive := false
  linkUp    := Config.initLinkUp
  tRx       := 0
  tTx       := 0
  camReq    := false
  micReq    := false
  plusCnt   := 0
  minusCnt  := 0
  shotCnt   := 0
  phase     := .rx
  now       := 0
  txOut     := []
  events    := []

end Sys2Proof.Machine
end

