-- ==== Sys2Proof/Machine/Operands.lean ====
section
/-! DEFINITION. Machine/Operands: the operators the operations apply to bytes, times, cursor and counters
(00_scope.md R10, R11; 40_frame_codec.md R100; 43_request_state.md R155). -/

namespace Sys2Proof.Machine

/-- `byte2bool(v)`: `v != 0x00` (00_scope.md R11; 30_encoding.md R74). -/
def byte2bool (v : Byte) : Bool := v != 0x00

/-- `bool2byte(x)`: 0x01 when true, 0x00 when false (00_scope.md R11; 30_encoding.md R73). -/
def bool2byte (x : Bool) : Byte := if x then 0x01 else 0x00

/-- `xorfold(b0, ..., bn-1)`, with `xorfold()` = 0x00 (40_frame_codec.md R100). -/
def xorfold (bytes : List Byte) : Byte := bytes.foldl (· ^^^ ·) 0x00

/-- `sub32(a, b)`: the elapsed time from `b` to `a`, modulo 2^32 (00_scope.md R11). -/
def sub32 (a b : Time) : Time := a - b

/-- At least `ms` milliseconds have elapsed from `since` to `now` (41_link_state_machine.md R122;
42_periodic_transmitter.md R140). -/
def elapsedAtLeast (ms : Nat) (now since : Time) : Bool := ms ≤ (sub32 now since).toNat

/-- The cursor after a store: advanced, and wrapped to 0 on reaching `RXBUF_LEN` (40_frame_codec.md R102). -/
def nextCursor (c : Cursor) : Cursor := if c.toNat + 1 ≥ Config.rxbufLen then 0 else c + 1

/-- `inc254(c)`: `c + 1` wrapped to 0 on reaching `COUNTER_MOD`, total over 0 to 255 (43_request_state.md R155). -/
def inc254 (c : Byte) : Byte := if c.toNat + 1 ≥ Config.counterMod then 0 else c + 1

/-- What a camera or microphone press gives, from the request and the confirmed bit (43_request_state.md R150, R151;
decision D11). -/
def toggled (basis : Config.ToggleBasis) (req active : Bool) : Bool :=
  match basis with
  | .request => !req
  | .confirmed => !active

/-- A counter value the outbound encoding can carry: 0 to 253 (30_encoding.md R75). -/
def counterLegal (c : Byte) : Bool := decide (c.toNat < Config.counterMod)

/-- The phase an operation requires; none for `RST` (30_encoding.md R88). -/
def requiredPhase : Instr → Option Phase
  | .rxb _ => some .rx
  | .wdt => some .rx
  | .txc => some .input
  | .btnCam => some .input
  | .btnMic => some .input
  | .btnPlus => some .input
  | .btnMinus => some .input
  | .btnShot => some .input
  | .rst => none

end Sys2Proof.Machine
end

