-- ==== Sys2Proof/Machine/Flags.lean ====
section
/-! DEFINITION. Machine/Flags: the only flag is `link_up` (10_state.md R32); `ACCEPT` sets it, `WDT` may clear it,
`RST` resets it, nothing else writes it. -/

namespace Sys2Proof.Machine

/-- The watchdog has expired: `sub32(now, t_rx) >= SERIAL_TIMEOUT_MS` (41_link_state_machine.md R122). -/
def linkTimedOut (now tRx : Time) : Bool := elapsedAtLeast Config.serialTimeoutMs now tRx

/-- `link_up` after `WDT`: 0 when the timeout has elapsed, else unchanged; never set to 1 (R122, R123). -/
def linkAfterWatchdog (now tRx : Time) (linkUp : Bool) : Bool :=
  if linkTimedOut now tRx then false else linkUp

/-- `link_up` after `ACCEPT` (R121). -/
def linkAfterAccept : Bool := true

/-- `link_up` after `RST` (70_reset_and_hazards.md R190). -/
def linkAfterReset : Bool := Config.initLinkUp

end Sys2Proof.Machine
end

