-- ==== Sys2Proof/Machine/Ops.lean ====
section
/-! DEFINITION. Machine/Ops: the operations every meaning shares: the scan buffer, the output stream, the phase check,
and the chaining of outcomes.

The block takes no exception and returns from none: no operation records a cause, saves state or transfers control
(60_exceptions.md R170, R175). There is therefore no exception entry here and no return beside it. -/

namespace Sys2Proof.Machine

/-- What an operation answers. -/
abbrev Answer := Host.Outcome State Fault Refusal

/-- Continue with the next state; a fault or a refusal stays as it is. -/
def andThen (o : Answer) (k : State → Answer) : Answer :=
  match o with
  | .next t => k t
  | .fault r => .fault r
  | .refused r => .refused r

/-! ### The scan buffer -/

/-- What an unlisted address of the scan buffer reads as: its reset contents (70_reset_and_hazards.md R190, D6). -/
def Memory.unlisted : Byte := 0x00

/-- The byte at an address. -/
def Memory.read : Memory → Nat → Byte
  | [], _ => Memory.unlisted
  | (b, w) :: m, a => if b = a then w else Memory.read m a

/-- Write the byte at an address, keeping the canonical form. -/
def Memory.write : Memory → Nat → Byte → Memory
  | [], a, v => if v = Memory.unlisted then [] else [(a, v)]
  | (b, w) :: m, a, v =>
    if a < b then (if v = Memory.unlisted then (b, w) :: m else (a, v) :: (b, w) :: m)
    else if a = b then (if v = Memory.unlisted then m else (a, v) :: m)
    else (b, w) :: Memory.write m a v

/-- The canonical form: addresses strictly rising and inside the buffer, no entry equal to what an unlisted address
reads as (log 2). -/
abbrev Memory.wf (m : Memory) : Prop :=
  m.Pairwise (fun p q => p.1 < q.1) ∧ ∀ p ∈ m, p.1 < Config.rxbufLen ∧ p.2 ≠ Memory.unlisted

/-- `MemRead(i, 1)`, given to `k`; a fault outside 0 to 4 (00_scope.md R12; 20_memory.md R51). -/
def memRead (i : Nat) (s : State) (k : Byte → Answer) : Answer :=
  if i < Config.rxbufLen then k (Memory.read s.rxBuf i) else .fault (.bufferIndex i)

/-- `MemWrite(i, 1, v)`; a fault outside 0 to 4 (00_scope.md R12; 20_memory.md R51). -/
def memWrite (i : Nat) (v : Byte) (s : State) : Answer :=
  if i < Config.rxbufLen then .next { s with rxBuf := Memory.write s.rxBuf i v } else .fault (.bufferIndex i)

/-! ### The output stream -/

/-- `Emit(f)`: append a frame to the transmit stream as one indivisible write (00_scope.md R12; 20_memory.md R57). The
transmit path always accepts it (decision D14). -/
def emit (f : List Byte) (s : State) : State := { s with txOut := s.txOut ++ f }

/-! ### Status outputs (10_state.md R34) -/

/-- `out_cam_active`. -/
def State.outCamActive (s : State) : Bool := s.camActive

/-- `out_mic_active`. -/
def State.outMicActive (s : State) : Bool := s.micActive

/-- `out_link_up`. -/
def State.outLinkUp (s : State) : Bool := s.linkUp

/-! ### The loop order, time and events -/

/-- The phase check every operation but `RST` makes: outside the required phase it has no transition
(30_encoding.md R88). -/
def requirePhase (required : Phase) (s : State) (o : Answer) : Answer :=
  if s.phase = required then o else .refused (.outOfPhase required s.phase)

/-- The state with the time input at `now` (10_state.md R35 (b)): every read within one operation sees this value. -/
def State.atTime (s : State) (now : Time) : State := { s with now := now }

/-- The events that `es` adds after those already pending (10_state.md R35). -/
def State.withEvents (s : State) (es : List Event) : State := { s with events := s.events ++ es }

/-- The step of a block that is presented nothing: all of its state changes happen in operations, so it stays as it is
(20_memory.md R60). DESIGN CHOICE (log 4). -/
def idle (s : State) : Answer := .next s

end Sys2Proof.Machine
end

