-- ==== Sys2Proof/Machine/LinkState.lean ====
section
/-! DEFINITION. Machine/LinkState: the Link State Machine, `ACCEPT` and `WDT` (41_link_state_machine.md R120 to R128). -/

namespace Sys2Proof.Machine

/-- `ACCEPT(c, m, now)`: the action on a valid inbound frame (R121), run inside the `RXB` that found the boundary
(decision D23). -/
def accept (c m : Byte) (s : State) : State :=
  { s with camActive := byte2bool c, micActive := byte2bool m, tRx := s.now, linkUp := linkAfterAccept }

/-- The watchdog evaluation (R122). -/
def evaluateWatchdog (s : State) : State := { s with linkUp := linkAfterWatchdog s.now s.tRx s.linkUp }

/-- `WDT` (R122). -/
def execWdt (s : State) : Answer :=
  requirePhase .rx s (.next { evaluateWatchdog s with phase := .input })

end Sys2Proof.Machine
end

