-- ==== Sys2Proof/Machine/FrameCodec.lean ====
section
/-! DEFINITION. Machine/FrameCodec: the Frame Codec, `RXB` and `ENCODE` (40_frame_codec.md R100 to R110), and the
reference checker of outbound frames (decision D22), which is no part of the block and stands here for claims. -/

namespace Sys2Proof.Machine

/-- The boundary test, against the last byte stored (R101). -/
def isBoundary (s : State) (b : Byte) : Bool := s.rxPrev == Config.delim0 && b == Config.delim1

/-- The check of the frame in the buffer at a boundary (R102): accepted, or discarded silently; the cursor goes to 0
after either, and the boundary byte is not stored. -/
def checkFrame (s : State) : Answer :=
  memRead 0 s fun c => memRead 1 s fun m => memRead 2 s fun k =>
    .next { (if xorfold [c, m] = k then accept c m s else s) with rxCur := 0 }

/-- The store of a byte that is no boundary (R102). -/
def storeByte (b : Byte) (s : State) : Answer :=
  andThen (memWrite s.rxCur.toNat b s) fun t => .next { t with rxPrev := b, rxCur := nextCursor s.rxCur }

/-- `RXB b` (R102). -/
def execRxb (b : Byte) (s : State) : Answer :=
  requirePhase .rx s (if isBoundary s b then checkFrame s else storeByte b s)

/-- The five payload bytes of an outbound frame, in their order (R109; 30_encoding.md R72). -/
def framePayload (cr mr : Bool) (p n s : Byte) : List Byte := [bool2byte cr, bool2byte mr, p, n, s]

/-- `ENCODE(cr, mr, p, n, s)`: payload, checksum, delimiter (R109). -/
def encodeFrame (cr mr : Bool) (p n s : Byte) : List Byte :=
  framePayload cr mr p n s ++ [xorfold (framePayload cr mr p n s), Config.delim0, Config.delim1]

/-- The reference checker of an outbound frame (R110, decision D22): accept exactly when the delimiter and the checksum
fit, and read the five values back. -/
def peerDecode : List Byte → Option (Bool × Bool × Byte × Byte × Byte)
  | [f0, f1, f2, f3, f4, f5, f6, f7] =>
    if f6 = Config.delim0 ∧ f7 = Config.delim1 ∧ f5 = xorfold [f0, f1, f2, f3, f4] then
      some (byte2bool f0, byte2bool f1, f2, f3, f4)
    else none
  | _ => none

end Sys2Proof.Machine
end

