-- ==== Sys2Proof/Machine/RequestState.lean ====
section
/-! DEFINITION. Machine/RequestState: LocalRequestState and the five button operations (43_request_state.md R150 to
R158). -/

namespace Sys2Proof.Machine

/-- `BTN.CAM` (R150). -/
def execBtnCam (s : State) : Answer :=
  requirePhase .input s (.next { s with camReq := toggled Config.toggleBasis s.camReq s.camActive })

/-- `BTN.MIC` (R151). -/
def execBtnMic (s : State) : Answer :=
  requirePhase .input s (.next { s with micReq := toggled Config.toggleBasis s.micReq s.micActive })

/-- `BTN.PLUS` (R152). -/
def execBtnPlus (s : State) : Answer :=
  requirePhase .input s (.next { s with plusCnt := inc254 s.plusCnt })

/-- `BTN.MINUS`: the counter still increments (R153). -/
def execBtnMinus (s : State) : Answer :=
  requirePhase .input s (.next { s with minusCnt := inc254 s.minusCnt })

/-- `BTN.SHOT` (R154). -/
def execBtnShot (s : State) : Answer :=
  requirePhase .input s (.next { s with shotCnt := inc254 s.shotCnt })

end Sys2Proof.Machine
end

