-- ==== Sys2Proof/Machine/Reset.lean ====
section
/-! DEFINITION. Machine/Reset: `RST` (70_reset_and_hazards.md R190). -/

namespace Sys2Proof.Machine

/-- `RST`, allowed in any phase (R190): every register to its reset value; the time input restarts at 0; bytes already
emitted stay emitted (10_state.md R36), and the events still to come stay the environment's. -/
def execRst (s : State) : Answer :=
  .next { State.reset with linkUp := linkAfterReset, txOut := s.txOut, events := s.events }

end Sys2Proof.Machine
end

