-- ==== Sys2Proof/Machine/Transmitter.lean ====
section
/-! DEFINITION. Machine/Transmitter: the Periodic Transmitter, `TXC` (42_periodic_transmitter.md R140 to R144). -/

namespace Sys2Proof.Machine

/-- The outbound frame of the request state as it stands (R140). -/
def requestFrame (s : State) : List Byte := encodeFrame s.camReq s.micReq s.plusCnt s.minusCnt s.shotCnt

/-- The three counters hold values the encoding can carry (30_encoding.md R75). -/
def countersLegal (s : State) : Bool := counterLegal s.plusCnt && counterLegal s.minusCnt && counterLegal s.shotCnt

/-- The transmit period has elapsed: `sub32(now, t_tx) >= TX_PERIOD_MS` (R140, decision D10). -/
def transmitDue (s : State) : Bool := elapsedAtLeast Config.txPeriodMs s.now s.tTx

/-- One fire: emit one frame and note its time (R140). A counter at 254 or 255 is never emitted: a fault
(93_implementation_defined.md; log 8). -/
def fire (s : State) : Answer :=
  if countersLegal s then .next { emit (requestFrame s) s with tTx := s.now } else .fault .reservedCounter

/-- `TXC` (R140). `link_up` is not read (R141). -/
def execTxc (s : State) : Answer :=
  requirePhase .input s (andThen (if transmitDue s then fire s else .next s) fun t => .next { t with phase := .rx })

end Sys2Proof.Machine
end

