-- ==== Sys2Proof/Machine/Dispatch.lean ====
section
/-! DEFINITION. Machine/Dispatch: one arm per operation (30_encoding.md R82). -/

namespace Sys2Proof.Machine

def exec (i : Instr) (s : State) : Host.Outcome State Fault Refusal :=
  match i with
  | .rxb b => Sys2Proof.Machine.execRxb b s
  | .wdt => Sys2Proof.Machine.execWdt s
  | .txc => Sys2Proof.Machine.execTxc s
  | .btnCam => Sys2Proof.Machine.execBtnCam s
  | .btnMic => Sys2Proof.Machine.execBtnMic s
  | .btnPlus => Sys2Proof.Machine.execBtnPlus s
  | .btnMinus => Sys2Proof.Machine.execBtnMinus s
  | .btnShot => Sys2Proof.Machine.execBtnShot s
  | .rst => Sys2Proof.Machine.execRst s

end Sys2Proof.Machine
end

