-- ==== Sys2Proof/Machine/Present.lean ====
section
/-! DEFINITION. Machine/Present: the presentation of one event to the block, and runs of events and of operations. -/

namespace Sys2Proof.Machine

/-- Present one event: its operation runs with the event's time on the time input (30_encoding.md R79); a word that is
no operation is refused (R83). -/
def present (e : Event) (s : State) : Answer :=
  match decode e.word with
  | .op i => exec i (s.atTime e.now)
  | .rejected why => .refused (.notAnOperation why e.word)

/-- Run operations in order, each at its time, stopping at the first fault or refusal (20_memory.md R60). -/
def runOps : List (Time × Instr) → State → Answer
  | [], s => .next s
  | (now, i) :: ops, s => andThen (exec i (s.atTime now)) (runOps ops)

/-- The event that names an operation at a time (30_encoding.md R79). -/
def eventOf (op : Time × Instr) : Event := ⟨op.1, encode op.2⟩

/-- The next event and the state that has it no longer pending. -/
def takeEvent (s : State) : Option (Event × State) :=
  match s.events with
  | [] => none
  | e :: rest => some (e, { s with events := rest })

/-- The loop's phase at the point where it takes the operation of a word; a word that is none, or `RST`, needs no
particular phase (30_encoding.md R88). -/
def phaseFor (w : EventWord) (p : Phase) : Phase :=
  match decode w with
  | .op i => (requiredPhase i).getD p
  | .rejected _ => p

/-- `s` with a word as its next event, at the time of the event before it, and the service loop at the point where it
takes that event (log 7). -/
def placeWord (s : State) (w : EventWord) : State :=
  { s with events := ⟨s.now, w⟩ :: s.events, phase := phaseFor w s.phase }

end Sys2Proof.Machine
end

