-- ==== Sys2Proof/Machine/Step.lean ====
section
/-! DEFINITION. Machine/Step: one step presents the next event to the block (30_encoding.md R88; log 3, log 4). -/

namespace Sys2Proof.Machine

/-- One step: the next pending event is presented; with none pending the block stays as it is. -/
def step (s : State) : Host.Outcome State Fault Refusal :=
  match takeEvent s with
  | none => idle s
  | some (e, t) => present e t

/-- `s` with a table word as its next event, and the service loop at the point where it takes that event (log 7): the
next step presents exactly that word. -/
def State.withFetchWord (s : State) (nbits w : Nat) : State := placeWord s (BitVec.ofNat 16 (w % 2 ^ nbits))

end Sys2Proof.Machine
end

