-- ==== Sys2Proof/Machine/TraceText.lean ====
section
/-! DEFINITION. Machine/TraceText: the trace syntax and the pseudo-operations (30_encoding.md R86, R87): text to lines,
lines to events. Text is a list of characters. -/

namespace Sys2Proof

/-- The operations a pseudo-operation stands for (30_encoding.md R87). -/
def Pseudo.expand : Pseudo → List Instr
  | .rxFrame c m => [.rxb c, .rxb m, .rxb (c ^^^ m), .rxb Config.delim0, .rxb Config.delim1]
  | .rxFrameK c m k => [.rxb c, .rxb m, .rxb k, .rxb Config.delim0, .rxb Config.delim1]
  | .rxRaw bytes => bytes.map .rxb
  | .idle => [.wdt, .txc]

/-- The operations a trace item stands for. -/
def TraceItem.expand : TraceItem → List Instr
  | .op i => [i]
  | .pseudo p => p.expand

/-- The time of a line: its own, or the previous event's (30_encoding.md R86). -/
def TraceLine.time (prev : Time) (l : TraceLine) : Time :=
  match l.stamp with
  | none => prev
  | some t => BitVec.ofNat 32 t

/-- The events of a trace; all events of one expansion carry the line's time (30_encoding.md R87). -/
def assembleFrom : Time → List TraceLine → List Event
  | _, [] => []
  | prev, l :: ls =>
    (l.item.expand.map fun i => Machine.eventOf (l.time prev, i)) ++ assembleFrom (l.time prev) ls

/-- The events of a whole trace: an omitted time is 0 for the first line (30_encoding.md R86). -/
def assemble (ls : List TraceLine) : List Event := assembleFrom 0 ls

/-! ### Text -/

/-- The value of a digit in a base up to 16 (00_scope.md R10). -/
def digitValue (base : Nat) (c : Char) : Option Nat :=
  let v :=
    if 48 ≤ c.toNat ∧ c.toNat ≤ 57 then c.toNat - 48
    else if 65 ≤ c.toNat ∧ c.toNat ≤ 70 then c.toNat - 55
    else if 97 ≤ c.toNat ∧ c.toNat ≤ 102 then c.toNat - 87
    else base
  if v < base then some v else none

/-- The value of a run of digits after a value already read. -/
def digitsFrom (base : Nat) : Nat → List Char → Option Nat
  | acc, [] => some acc
  | acc, c :: cs =>
    match digitValue base c with
    | some d => digitsFrom base (acc * base + d) cs
    | none => none

/-- A decimal numeral: one digit or more. -/
def decimal (cs : List Char) : Option Nat := if cs.isEmpty then none else digitsFrom 10 0 cs

/-- A hexadecimal numeral: `0x` and one digit or more (00_scope.md R10). -/
def hexadecimal (cs : List Char) : Option Nat :=
  if cs.take 2 = ['0', 'x'] ∧ (cs.drop 2).isEmpty = false then digitsFrom 16 0 (cs.drop 2) else none

/-- A value that fits a byte. -/
def asByte (n : Option Nat) : Option Byte :=
  match n with
  | some v => if v < 256 then some (BitVec.ofNat 8 v) else none
  | none => none

/-- The operand of `RXB`: a byte in `0x` hexadecimal (30_encoding.md R86). -/
def hexByte (cs : List Char) : Option Byte := asByte (hexadecimal cs)

/-- The operand of a pseudo-operation: a byte as any numeral, hexadecimal or decimal (00_scope.md R10; log 10). -/
def anyByte (cs : List Char) : Option Byte :=
  match hexByte cs with
  | some b => some b
  | none => asByte (decimal cs)

/-- All the operands, or none if one is not a byte. -/
def anyBytes : List (List Char) → Option (List Byte)
  | [] => some []
  | w :: ws =>
    match anyByte w, anyBytes ws with
    | some b, some bs => some (b :: bs)
    | _, _ => none

/-- The part of a line before its comment (30_encoding.md R86). -/
def dropComment (cs : List Char) : List Char := cs.takeWhile (· != ';')

/-- Blanks, and the comma between operands (30_encoding.md R87), separate words. -/
def isSeparator (c : Char) : Bool := c == ' ' || c == '\t' || c == '\r' || c == ','

/-- The words of a line, after the letters of the word being read, last letter first. -/
def wordsFrom : List Char → List Char → List (List Char)
  | cur, [] => if cur.isEmpty then [] else [cur.reverse]
  | cur, c :: cs =>
    if isSeparator c then (if cur.isEmpty then wordsFrom [] cs else cur.reverse :: wordsFrom [] cs)
    else wordsFrom (c :: cur) cs

/-- The mnemonics that take no operand (30_encoding.md R86, R87). -/
def bareItems : List (List Char × TraceItem) :=
  [(['W', 'D', 'T'], .op .wdt), (['T', 'X', 'C'], .op .txc),
    (['B', 'T', 'N', '.', 'C', 'A', 'M'], .op .btnCam), (['B', 'T', 'N', '.', 'M', 'I', 'C'], .op .btnMic),
    (['B', 'T', 'N', '.', 'P', 'L', 'U', 'S'], .op .btnPlus),
    (['B', 'T', 'N', '.', 'M', 'I', 'N', 'U', 'S'], .op .btnMinus),
    (['B', 'T', 'N', '.', 'S', 'H', 'O', 'T'], .op .btnShot), (['R', 'S', 'T'], .op .rst),
    (['I', 'D', 'L', 'E'], .pseudo .idle)]

/-- `RXB 0xNN` (30_encoding.md R86). -/
def parseRxb : List (List Char) → Option TraceItem
  | [w] => (hexByte w).map fun b => .op (.rxb b)
  | _ => none

/-- `RXFRAME c, m` (30_encoding.md R87). -/
def frameItem : List Byte → Option TraceItem
  | [c, m] => some (.pseudo (.rxFrame c m))
  | _ => none

/-- `RXFRAME.K c, m, k` (30_encoding.md R87). -/
def frameKItem : List Byte → Option TraceItem
  | [c, m, k] => some (.pseudo (.rxFrameK c m k))
  | _ => none

/-- `RXRAW b1, ..., bn` (30_encoding.md R87). -/
def rawItem (bs : List Byte) : Option TraceItem := some (.pseudo (.rxRaw bs))

/-- A mnemonic and its operands (30_encoding.md R86, R87). -/
def parseItem (name : List Char) (args : List (List Char)) : Option TraceItem :=
  if name = ['R', 'X', 'B'] then parseRxb args
  else if name = ['R', 'X', 'F', 'R', 'A', 'M', 'E'] then (anyBytes args).bind frameItem
  else if name = ['R', 'X', 'F', 'R', 'A', 'M', 'E', '.', 'K'] then (anyBytes args).bind frameKItem
  else if name = ['R', 'X', 'R', 'A', 'W'] then (anyBytes args).bind rawItem
  else if args.isEmpty then bareItems.lookup name
  else none

/-- What one line of text gives. -/
inductive ParsedLine where
  | blank
  | line (l : TraceLine)
  | malformed
deriving DecidableEq, Repr

/-- A line with its time and item, if the item reads and the line is well formed. -/
def checkedLine (stamp : Option Nat) (item : Option TraceItem) : ParsedLine :=
  match item with
  | some it => if (TraceLine.mk stamp it).wf then .line ⟨stamp, it⟩ else .malformed
  | none => .malformed

/-- The words of a line: `[@<now>] <mnemonic> [<operand>]` (30_encoding.md R86). -/
def parseWords : List (List Char) → ParsedLine
  | [] => .blank
  | ('@' :: t) :: name :: args =>
    match decimal t with
    | some n => checkedLine (some n) (parseItem name args)
    | none => .malformed
  | name :: args => checkedLine none (parseItem name args)

/-- One line of text (30_encoding.md R86). -/
def parseLine (text : List Char) : ParsedLine := parseWords (wordsFrom [] (dropComment text))

/-- A whole trace: one event or pseudo-operation a line, blank lines left out; none if a line is malformed
(30_encoding.md R86). -/
def parseTrace : List (List Char) → Option (List TraceLine)
  | [] => some []
  | text :: rest =>
    match parseLine text, parseTrace rest with
    | .blank, some ls => some ls
    | .line l, some ls => some (l :: ls)
    | _, _ => none

/-- A hexadecimal digit, capital letters. -/
def hexDigit (n : Nat) : Char := Char.ofNat (if n < 10 then n + 48 else n + 55)

/-- The text of an operation: its mnemonic and operand (30_encoding.md R86). -/
def Instr.text : Instr → List Char
  | .rxb b => ['R', 'X', 'B', ' ', '0', 'x', hexDigit (b.toNat / 16), hexDigit (b.toNat % 16)]
  | .wdt => ['W', 'D', 'T']
  | .txc => ['T', 'X', 'C']
  | .btnCam => ['B', 'T', 'N', '.', 'C', 'A', 'M']
  | .btnMic => ['B', 'T', 'N', '.', 'M', 'I', 'C']
  | .btnPlus => ['B', 'T', 'N', '.', 'P', 'L', 'U', 'S']
  | .btnMinus => ['B', 'T', 'N', '.', 'M', 'I', 'N', 'U', 'S']
  | .btnShot => ['B', 'T', 'N', '.', 'S', 'H', 'O', 'T']
  | .rst => ['R', 'S', 'T']

end Sys2Proof
end

