-- ==== Sys2Proof/Safety.lean ====
section
/-! DEFINITION. Safety: the notions claims are stated in: legal states, the framed output stream, the loop's grammar,
real time, accepted and emitted frames of a run, and the observation points. -/

namespace Sys2Proof.Machine

/-! ### Invariants (10_state.md R39) -/

/-- The bounds of 10_state.md R39, and the scan buffer's canonical form. -/
abbrev State.Legal (s : State) : Prop :=
  Memory.wf s.rxBuf ∧ s.rxCur.toNat ≤ 4 ∧ s.plusCnt.toNat ≤ 253 ∧ s.minusCnt.toNat ≤ 253 ∧ s.shotCnt.toNat ≤ 253

/-- One outbound frame as 30_encoding.md R72 writes it: five payload bytes in their ranges, their xor, 0xFE, 0xFF. -/
def IsOutboundFrame (f : List Byte) : Prop :=
  ∃ cr mr p n s : Byte,
    (cr = 0 ∨ cr = 1) ∧ (mr = 0 ∨ mr = 1) ∧ p.toNat ≤ 253 ∧ n.toNat ≤ 253 ∧ s.toNat ≤ 253 ∧
      f = [cr, mr, p, n, s, cr ^^^ mr ^^^ p ^^^ n ^^^ s, 0xFE, 0xFF]

/-- A byte sequence that is outbound frames one after another (10_state.md R36; 20_memory.md R57). -/
def FramedStream (out : List Byte) : Prop :=
  ∃ frames : List (List Byte), (∀ f ∈ frames, IsOutboundFrame f) ∧ out = frames.flatten

/-- The state is legal and its output stream is made of whole frames. -/
def State.Inv (s : State) : Prop := s.Legal ∧ FramedStream s.txOut

/-! ### The loop's grammar (30_encoding.md R88) -/

/-- The five button operations. -/
def isButton : Instr → Bool
  | .btnCam => true
  | .btnMic => true
  | .btnPlus => true
  | .btnMinus => true
  | .btnShot => true
  | .rxb _ => false
  | .wdt => false
  | .txc => false
  | .rst => false

/-- `Iteration = RXB* WDT BTN* TXC`. -/
def IsIteration (ops : List Instr) : Prop :=
  ∃ (bytes : List Byte) (buttons : List Instr),
    (∀ b ∈ buttons, isButton b = true) ∧ ops = bytes.map Instr.rxb ++ [.wdt] ++ buttons ++ [.txc]

/-- Whole iterations, then the beginning of one. -/
def IsLoopRun (ops : List Instr) : Prop :=
  ∃ (iterations : List (List Instr)) (begun rest : List Instr),
    (∀ it ∈ iterations, IsIteration it) ∧ IsIteration (begun ++ rest) ∧ ops = iterations.flatten ++ begun

/-- A finite prefix of a grammatical trace: `Iteration*`, with `RST` allowed anywhere. -/
def Grammatical (ops : List Instr) : Prop :=
  ∃ (parts : List (List Instr)) (last : List Instr),
    (∀ p ∈ parts, IsLoopRun p) ∧ IsLoopRun last ∧ ops = (parts.map fun p => p ++ [Instr.rst]).flatten ++ last

/-! ### Real time and the frames of a run -/

/-- Operations at real times, as the block sees them: its time input is the real time modulo 2^32
(10_state.md R35 (b)). -/
def clocked (ops : List (Nat × Instr)) : List (Time × Instr) := ops.map fun op => (BitVec.ofNat 32 op.1, op.2)

/-- The operation is an `RXB` at a boundary whose frame passes the check (40_frame_codec.md R102). -/
def acceptsFrame (i : Instr) (s : State) : Bool :=
  match i with
  | .rxb b =>
    s.rxPrev == 0xFE && b == 0xFF &&
      Memory.read s.rxBuf 0 ^^^ Memory.read s.rxBuf 1 == Memory.read s.rxBuf 2
  | .wdt => false
  | .txc => false
  | .btnCam => false
  | .btnMic => false
  | .btnPlus => false
  | .btnMinus => false
  | .btnShot => false
  | .rst => false

/-- The real times of the accepted frames of a run, oldest first. -/
def acceptTimes : List (Nat × Instr) → State → List Nat
  | [], _ => []
  | (now, i) :: ops, s =>
    match exec i (s.atTime (BitVec.ofNat 32 now)) with
    | .next t => if acceptsFrame i s then now :: acceptTimes ops t else acceptTimes ops t
    | _ => []

/-- The real times at which a run's output stream grew, oldest first. -/
def emitTimes : List (Nat × Instr) → State → List Nat
  | [], _ => []
  | (now, i) :: ops, s =>
    match exec i (s.atTime (BitVec.ofNat 32 now)) with
    | .next t => if s.txOut.length < t.txOut.length then now :: emitTimes ops t else emitTimes ops t
    | _ => []

/-! ### Observation points (70_reset_and_hazards.md R193) -/

/-- What the outside sees at an observation point. -/
inductive Observation where
  /-- The render point, right after a `WDT`: the three status outputs. -/
  | render (cam mic link : Bool)
  /-- The iteration end, right after a `TXC`: every byte emitted so far. -/
  | iterationEnd (out : List Byte)
deriving DecidableEq, Repr

/-- The observation an operation ends in, if any. -/
def observe (i : Instr) (t : State) : Option Observation :=
  match i with
  | .wdt => some (.render t.outCamActive t.outMicActive t.outLinkUp)
  | .txc => some (.iterationEnd t.txOut)
  | .rxb _ => none
  | .btnCam => none
  | .btnMic => none
  | .btnPlus => none
  | .btnMinus => none
  | .btnShot => none
  | .rst => none

/-- The observations of a run, oldest first. -/
def observations : List (Time × Instr) → State → List Observation
  | [], _ => []
  | (now, i) :: ops, s =>
    match exec i (s.atTime now) with
    | .next t => (observe i t).toList ++ observations ops t
    | _ => []

end Sys2Proof.Machine
end

