-- ==== Sys2Proof/Certificates/Slice0/Obligations.lean ====
section
/-! DEFINITION. Obligations: the statements for the provers. Constants are written as the spec writes them (0xFE, 2000),
not by the model's names for them. -/

open Sys2Proof Sys2Proof.Machine

/-! ### Encoding -/

/-- Words of 30_encoding.md R82 written out bit by bit decode to the operations they stand for. -/
def Obligations.WrittenOutWordsDecode : Prop :=
  decode 0b0001000011111110 = .op (.rxb 0xFE) ∧
  decode 0b0010000000000000 = .op .wdt ∧
  decode 0b0011000000000000 = .op .txc ∧
  decode 0b0100000000000000 = .op .btnCam ∧
  decode 0b0100000000000001 = .op .btnMic ∧
  decode 0b0100000000000010 = .op .btnPlus ∧
  decode 0b0100000000000011 = .op .btnMinus ∧
  decode 0b0100000000000100 = .op .btnShot ∧
  decode 0b1111000000000000 = .op .rst

/-- A word decodes to an operation exactly when it is the operation's encoding (30_encoding.md R82, R83). -/
def Obligations.DecodeIsInverseOfEncode : Prop :=
  ∀ (w : EventWord) (i : Instr), i.wf = true → (decode w = .op i ↔ w = encode i)

/-- The operation table's match and mask columns, and that no word matches two rows (30_encoding.md R82). -/
def Obligations.TableRowsDoNotOverlap : Prop :=
  opcodeRows = [(0x1000, 0xFF00), (0x2000, 0xFFFF), (0x3000, 0xFFFF), (0x4000, 0xFFFF), (0x4001, 0xFFFF),
    (0x4002, 0xFFFF), (0x4003, 0xFFFF), (0x4004, 0xFFFF), (0xF000, 0xFFFF)] ∧
  (∀ w : EventWord, ∀ r ∈ opcodeRows, ∀ q ∈ opcodeRows, w &&& r.2 = r.1 → w &&& q.2 = q.1 → r = q) ∧
  (∀ (w : EventWord) (i : Instr), decode w = .op i → w &&& (rowOf i).2 = (rowOf i).1 ∧ rowOf i ∈ opcodeRows) ∧
  (∀ w : EventWord, ∀ r ∈ opcodeRows, w &&& r.2 = r.1 → ∃ i, decode w = .op i ∧ rowOf i = r)

/-- The decoder of 30_encoding.md R83, and that a step presented with any other word is refused. The last clause rests
on two choices of the model: that the refusal R83 asks for is the step's outcome and ends the run (log 12, DEDUCED),
and that presented events stand in the state as a list (log 3, DESIGN CHOICE). -/
def Obligations.DecodeIsTotalAndRefusesTheRest : Prop :=
  ∀ w : EventWord,
    (w.extractLsb' 12 4 = 0x1 ∧ w.extractLsb' 8 4 = 0 → decode w = .op (.rxb (w.extractLsb' 0 8))) ∧
    (w = 0x2000 → decode w = .op .wdt) ∧
    (w = 0x3000 → decode w = .op .txc) ∧
    (w = 0x4000 → decode w = .op .btnCam) ∧
    (w = 0x4001 → decode w = .op .btnMic) ∧
    (w = 0x4002 → decode w = .op .btnPlus) ∧
    (w = 0x4003 → decode w = .op .btnMinus) ∧
    (w = 0x4004 → decode w = .op .btnShot) ∧
    (w = 0xF000 → decode w = .op .rst) ∧
    (¬(w.extractLsb' 12 4 = 0x1 ∧ w.extractLsb' 8 4 = 0) → w ≠ 0x2000 → w ≠ 0x3000 →
      ¬(w.extractLsb' 8 8 = 0x40 ∧ (w.extractLsb' 0 8).toNat ≤ 4) → w ≠ 0xF000 →
      ∃ why, decode w = .rejected why ∧
        ∀ (s : State) (now : Time) (rest : List Event), s.events = ⟨now, w⟩ :: rest →
          step s = .refused (.notAnOperation why w))

/-! ### The step -/

/-- A step runs the operation the next event's word decodes to, with the event's time on the time input and the event
no longer pending. That pending events stand in the state is the model's choice (log 3). -/
def Obligations.StepRunsThePresentedOperation : Prop :=
  ∀ (s : State) (now : Time) (w : EventWord) (rest : List Event) (i : Instr),
    s.events = ⟨now, w⟩ :: rest → decode w = .op i →
      step s = exec i { s with now := now, events := rest }

/-- A step with no event presented leaves the state as it is. The model's choice (log 4): the spec says nothing of
such a step. -/
def Obligations.StepWithNothingPresentedChangesNothing : Prop :=
  ∀ s : State, s.events = [] → step s = .next s

/-- As many steps as there are operations presented are the run of those operations: the statements about runs of
operations are statements about steps. That presented events stand in the state as a list and that one step takes the
oldest is the model's choice (log 3, DESIGN CHOICE); that a refusal ends the run is the model's reading (log 12,
DEDUCED). -/
def Obligations.StepsRunThePresentedOperations : Prop :=
  ∀ (ops : List (Time × Instr)) (rest : List Event) (s : State),
    s.events = ops.map (fun op => ⟨op.1, encode op.2⟩) ++ rest →
      Host.Core.run Sys2Proof.core ops.length s = runOps ops { s with events := rest }

/-! ### The loop order -/

/-- The table of 30_encoding.md R88: outside its required phase an operation is refused; where an operation answers a
next state, the phase was the required one and the phase after is the table's. -/
def Obligations.LoopOrderTable : Prop :=
  ∀ s : State,
    (s.phase = .input → (∀ b, exec (.rxb b) s = .refused (.outOfPhase .rx .input)) ∧
      exec .wdt s = .refused (.outOfPhase .rx .input)) ∧
    (s.phase = .rx → ∀ i ∈ [Instr.txc, .btnCam, .btnMic, .btnPlus, .btnMinus, .btnShot],
      exec i s = .refused (.outOfPhase .input .rx)) ∧
    (∀ b t, exec (.rxb b) s = .next t → s.phase = .rx ∧ t.phase = .rx) ∧
    (∀ t, exec .wdt s = .next t → s.phase = .rx ∧ t.phase = .input) ∧
    (∀ i ∈ [Instr.btnCam, .btnMic, .btnPlus, .btnMinus, .btnShot], ∀ t, exec i s = .next t →
      s.phase = .input ∧ t.phase = .input) ∧
    (∀ t, exec .txc s = .next t → s.phase = .input ∧ t.phase = .rx) ∧
    (∃ t, exec .rst s = .next t ∧ t.phase = .rx)

/-- From a legal state at the start of an iteration, a trace runs to its end, at whatever times, exactly when it is a
prefix of a trace of the grammar of 30_encoding.md R88. -/
def Obligations.GrammaticalTracesAreThoseThatRun : Prop :=
  ∀ (ops : List (Time × Instr)) (s : State), s.Legal → s.phase = .rx →
    ((∃ t, runOps ops s = .next t) ↔ Grammatical (ops.map Prod.snd))

/-! ### RXB and ACCEPT -/

/-- `RXB b` as 40_frame_codec.md R102 gives it: a boundary whose frame passes is accepted (R121), a boundary whose
frame fails is discarded, any other byte is stored; every case leaves everything else unchanged; out of phase it is
refused. -/
def Obligations.RxbFollowsItsRule : Prop :=
  ∀ (s : State) (b : Byte),
    (s.phase = .rx → s.rxPrev = 0xFE → b = 0xFF →
      Memory.read s.rxBuf 0 ^^^ Memory.read s.rxBuf 1 = Memory.read s.rxBuf 2 →
      exec (.rxb b) s = .next { s with
        camActive := decide (Memory.read s.rxBuf 0 ≠ 0), micActive := decide (Memory.read s.rxBuf 1 ≠ 0),
        tRx := s.now, linkUp := true, rxCur := 0 }) ∧
    (s.phase = .rx → s.rxPrev = 0xFE → b = 0xFF →
      Memory.read s.rxBuf 0 ^^^ Memory.read s.rxBuf 1 ≠ Memory.read s.rxBuf 2 →
      exec (.rxb b) s = .next { s with rxCur := 0 }) ∧
    (s.phase = .rx → ¬(s.rxPrev = 0xFE ∧ b = 0xFF) → s.rxCur.toNat ≤ 4 →
      exec (.rxb b) s = .next { s with
        rxBuf := Memory.write s.rxBuf s.rxCur.toNat b, rxPrev := b,
        rxCur := if s.rxCur.toNat + 1 ≥ 5 then 0 else s.rxCur + 1 }) ∧
    (s.phase = .input → exec (.rxb b) s = .refused (.outOfPhase .rx .input))

/-- What `RXB` does to the scan buffer, read byte by byte, in a legal state: a store writes the byte at the cursor and
nothing else, a boundary writes nothing; no other register than those of 10_state.md R21 to R26 changes. The pending
events are the model's own field (log 3, DESIGN CHOICE); that they are unchanged is no rule of the spec. -/
def Obligations.RxbScanBufferFrame : Prop :=
  ∀ (s : State) (b : Byte), s.Legal → s.phase = .rx →
    ∃ t, exec (.rxb b) s = .next t ∧ Memory.wf t.rxBuf ∧
      (¬(s.rxPrev = 0xFE ∧ b = 0xFF) →
        Memory.read t.rxBuf s.rxCur.toNat = b ∧
        (∀ a, a ≠ s.rxCur.toNat → Memory.read t.rxBuf a = Memory.read s.rxBuf a) ∧
        t.camActive = s.camActive ∧ t.micActive = s.micActive ∧ t.linkUp = s.linkUp ∧ t.tRx = s.tRx) ∧
      (s.rxPrev = 0xFE ∧ b = 0xFF → (∀ a, Memory.read t.rxBuf a = Memory.read s.rxBuf a) ∧ t.rxPrev = s.rxPrev) ∧
      t.tTx = s.tTx ∧ t.camReq = s.camReq ∧ t.micReq = s.micReq ∧ t.plusCnt = s.plusCnt ∧
      t.minusCnt = s.minusCnt ∧ t.shotCnt = s.shotCnt ∧ t.phase = s.phase ∧ t.now = s.now ∧ t.txOut = s.txOut ∧
      t.events = s.events

/-- A store with a cursor of 5 to 7, which no reachable state holds, faults with the index (20_memory.md R51;
93_implementation_defined.md). -/
def Obligations.StoreOutsideTheScanBufferFaults : Prop :=
  ∀ (s : State) (b : Byte), s.phase = .rx → ¬(s.rxPrev = 0xFE ∧ b = 0xFF) → 5 ≤ s.rxCur.toNat →
    exec (.rxb b) s = .fault (.bufferIndex s.rxCur.toNat)

/-- 40_frame_codec.md R103, which the spec derives: a received 0xFE is always stored and leaves `rx_prev = 0xFE`; a
0xFF that follows it, at any time, is a boundary, wherever the cursor stands. -/
def Obligations.ReceivedDelim0IsStoredAndArmsTheBoundary : Prop :=
  ∀ s : State, s.Legal → s.phase = .rx →
    ∃ t, exec (.rxb 0xFE) s = .next t ∧ t.rxPrev = 0xFE ∧ Memory.read t.rxBuf s.rxCur.toNat = 0xFE ∧
      ∀ now, ∃ u, exec (.rxb 0xFF) (t.atTime now) = .next u ∧
        u.rxCur = 0 ∧ u.rxBuf = t.rxBuf ∧ u.rxPrev = 0xFE

/-- The first part of 40_frame_codec.md R104, which the spec derives: after a run of bytes, `rx_prev` holds 0xFE, so
that a 0xFF would be a boundary, exactly when the stream ends in 0xFE followed only by 0xFF bytes. -/
def Obligations.BoundaryIsArmedByDelim0ThenOnlyDelim1 : Prop :=
  ∀ (bytes : List (Time × Byte)) (s : State), s.Legal → s.phase = .rx → s.rxPrev ≠ 0xFE →
    ∃ t, runOps (bytes.map fun x => (x.1, Instr.rxb x.2)) s = .next t ∧
      (t.rxPrev = 0xFE ↔
        ∃ (before : List Byte) (n : Nat), bytes.map Prod.snd = before ++ 0xFE :: List.replicate n 0xFF)

/-- The second part of 40_frame_codec.md R104, which the spec derives: every 0xFF of a run of them after a boundary or
a 0xFE re-checks the same buffer and has the outcome of the first; an accepted frame is accepted again, with `t_rx`
the time of the repeat. -/
def Obligations.RepeatedDelim1RepeatsTheOutcome : Prop :=
  ∀ (times : List Time) (last : Time) (s : State), s.phase = .rx → s.rxPrev = 0xFE →
    runOps ((times ++ [last]).map fun now => (now, Instr.rxb 0xFF)) s =
      .next (if Memory.read s.rxBuf 0 ^^^ Memory.read s.rxBuf 1 = Memory.read s.rxBuf 2 then
        { s with
          camActive := decide (Memory.read s.rxBuf 0 ≠ 0), micActive := decide (Memory.read s.rxBuf 1 ≠ 0),
          tRx := last, linkUp := true, rxCur := 0, now := last }
        else { s with rxCur := 0, now := last })

/-- 40_frame_codec.md R105, which the spec derives: a stream with no adjacent pair (0xFE, 0xFF), of any length, is
stored byte by byte: every `RXB` has a transition, the confirmed state, `link_up` and `t_rx` stay, and the cursor
counts modulo 5. -/
def Obligations.NoiseIsStoredAndNeverAccepted : Prop :=
  ∀ (bytes : List (Time × Byte)) (s : State), s.Legal → s.phase = .rx → s.rxPrev ≠ 0xFE →
    (∀ before after : List Byte, bytes.map Prod.snd ≠ before ++ 0xFE :: 0xFF :: after) →
    ∃ t, runOps (bytes.map fun x => (x.1, Instr.rxb x.2)) s = .next t ∧
      t.camActive = s.camActive ∧ t.micActive = s.micActive ∧ t.linkUp = s.linkUp ∧ t.tRx = s.tRx ∧
      t.rxCur.toNat = (s.rxCur.toNat + bytes.length) % 5

/-- 40_frame_codec.md R107, which the spec derives, at whatever times the bytes come: a well-formed frame ends in a
boundary from any state; it is accepted if the cursor is 0 at its first byte; and after any garbage and one frame, the
next frame is accepted. -/
def Obligations.DecoderResynchronises : Prop :=
  ∀ (ops : List (Time × Instr)) (s : State) (c m : Byte), s.Legal → s.phase = .rx →
    (c = 0 ∨ c = 1) → (m = 0 ∨ m = 1) →
    (ops.map Prod.snd = (Pseudo.rxFrame c m).expand →
      ∃ t, runOps ops s = .next t ∧ t.rxCur = 0 ∧ t.rxPrev = 0xFE ∧
        (s.rxCur = 0 → t.camActive = decide (c ≠ 0) ∧ t.micActive = decide (m ≠ 0) ∧ t.linkUp = true ∧
          t.tRx = t.now)) ∧
    (∀ (garbage : List Byte) (c' m' : Byte), (c' = 0 ∨ c' = 1) → (m' = 0 ∨ m' = 1) →
      ops.map Prod.snd =
        (Pseudo.rxRaw garbage).expand ++ (Pseudo.rxFrame c' m').expand ++ (Pseudo.rxFrame c m).expand →
      ∃ t, runOps ops s = .next t ∧ t.rxCur = 0 ∧
        t.camActive = decide (c ≠ 0) ∧ t.micActive = decide (m ≠ 0) ∧ t.linkUp = true ∧ t.tRx = t.now)

/-- 40_frame_codec.md R108, which the spec derives: an aligned well-formed frame with one bit flipped in one of its
first three bytes ends in a boundary and is not accepted. -/
def Obligations.SingleBitErrorIsRejected : Prop :=
  ∀ (ops : List (Time × Instr)) (s : State) (c m b0 b1 b2 : Byte) (bit : Nat),
    s.Legal → s.phase = .rx → s.rxCur = 0 → (c = 0 ∨ c = 1) → (m = 0 ∨ m = 1) → bit < 8 →
    ((b0, b1, b2) = (c ^^^ (1#8 <<< bit), m, c ^^^ m) ∨ (b0, b1, b2) = (c, m ^^^ (1#8 <<< bit), c ^^^ m) ∨
      (b0, b1, b2) = (c, m, (c ^^^ m) ^^^ (1#8 <<< bit))) →
    ops.map Prod.snd = [.rxb b0, .rxb b1, .rxb b2, .rxb 0xFE, .rxb 0xFF] →
    ∃ t, runOps ops s = .next t ∧ t.rxCur = 0 ∧ t.rxPrev = 0xFE ∧
      t.camActive = s.camActive ∧ t.micActive = s.micActive ∧ t.linkUp = s.linkUp ∧ t.tRx = s.tRx

/-- 40_frame_codec.md R106 and 70_reset_and_hazards.md R197, which the spec derives: a delimiter right after a
boundary is checked against the cells as they stand, the 0xFE itself in cell 0 and older bytes in cells 1 and 2. -/
def Obligations.ShortFrameIsCheckedAgainstOlderBytes : Prop :=
  ∀ (s : State) (now now' : Time), s.Legal → s.phase = .rx → s.rxCur = 0 →
    ∃ t, runOps [(now, .rxb 0xFE), (now', .rxb 0xFF)] s = .next t ∧ t.rxCur = 0 ∧
      (0xFE ^^^ Memory.read s.rxBuf 1 = Memory.read s.rxBuf 2 →
        t.camActive = true ∧ t.micActive = decide (Memory.read s.rxBuf 1 ≠ 0) ∧ t.linkUp = true ∧ t.tRx = now') ∧
      (0xFE ^^^ Memory.read s.rxBuf 1 ≠ Memory.read s.rxBuf 2 →
        t.camActive = s.camActive ∧ t.micActive = s.micActive ∧ t.linkUp = s.linkUp ∧ t.tRx = s.tRx)

/-- 40_frame_codec.md R100: the fold over no byte is 0x00, a fold takes in each byte by xor, and its order does not
matter. -/
def Obligations.ChecksumFoldsInAnyOrder : Prop :=
  xorfold [] = 0 ∧ (∀ (b : Byte) (l : List Byte), xorfold (b :: l) = b ^^^ xorfold l) ∧
  (∀ l k : List Byte, l.Perm k → xorfold l = xorfold k)

/-! ### ENCODE and TXC -/

/-- 40_frame_codec.md R109: the eight bytes of an outbound frame. -/
def Obligations.EncodeBuildsTheOutboundFrame : Prop :=
  ∀ (cr mr : Bool) (p n s : Byte),
    encodeFrame cr mr p n s =
      [if cr then 0x01 else 0x00, if mr then 0x01 else 0x00, p, n, s,
        (if cr then 0x01 else 0x00) ^^^ (if mr then 0x01 else 0x00) ^^^ p ^^^ n ^^^ s, 0xFE, 0xFF]

/-- 40_frame_codec.md R110, which the spec derives: the reference checker accepts every encoded frame and reads the
five values back; and a frame it accepts whose request bytes are 0x00 or 0x01 is the encoding of what it reads. -/
def Obligations.PeerRoundTrip : Prop :=
  (∀ (cr mr : Bool) (p n s : Byte), peerDecode (encodeFrame cr mr p n s) = some (cr, mr, p, n, s)) ∧
  (∀ (f : List Byte) (cr mr : Bool) (p n s : Byte), peerDecode f = some (cr, mr, p, n, s) →
    (f[0]? = some 0 ∨ f[0]? = some 1) → (f[1]? = some 0 ∨ f[1]? = some 1) → encodeFrame cr mr p n s = f)

/-- `TXC` as 42_periodic_transmitter.md R140 gives it: at 500 ms or more one frame is emitted and `t_tx` takes the
time; below, nothing is emitted; either way the iteration ends, and everything else is unchanged; out of phase it is
refused. -/
def Obligations.TxcFollowsItsRule : Prop :=
  ∀ s : State,
    (s.phase = .input → 500 ≤ (s.now - s.tTx).toNat →
      s.plusCnt.toNat ≤ 253 → s.minusCnt.toNat ≤ 253 → s.shotCnt.toNat ≤ 253 →
      exec .txc s = .next { s with
        txOut := s.txOut ++
          [if s.camReq then 0x01 else 0x00, if s.micReq then 0x01 else 0x00, s.plusCnt, s.minusCnt, s.shotCnt,
            (if s.camReq then 0x01 else 0x00) ^^^ (if s.micReq then 0x01 else 0x00) ^^^ s.plusCnt ^^^ s.minusCnt ^^^
              s.shotCnt, 0xFE, 0xFF],
        tTx := s.now, phase := .rx }) ∧
    (s.phase = .input → (s.now - s.tTx).toNat < 500 → exec .txc s = .next { s with phase := .rx }) ∧
    (s.phase = .rx → exec .txc s = .refused (.outOfPhase .input .rx))

/-- A `TXC` that would emit a counter at 254 or 255, which no reachable state holds, faults: the encoding reserves
both values (30_encoding.md R75; 93_implementation_defined.md; the model's reading, log 8). -/
def Obligations.ReservedCounterIsNeverEmitted : Prop :=
  ∀ s : State, s.phase = .input → 500 ≤ (s.now - s.tTx).toNat →
    (253 < s.plusCnt.toNat ∨ 253 < s.minusCnt.toNat ∨ 253 < s.shotCnt.toNat) →
    exec .txc s = .fault .reservedCounter

/-- 42_periodic_transmitter.md R141, which the spec derives: `TXC` does not depend on the link state, and does not
write it. -/
def Obligations.TransmissionIgnoresTheLink : Prop :=
  ∀ (s : State) (up : Bool),
    (∀ t, exec .txc s = .next t → exec .txc { s with linkUp := up } = .next { t with linkUp := up }) ∧
    (∀ r, exec .txc s = .fault r → exec .txc { s with linkUp := up } = .fault r) ∧
    (∀ r, exec .txc s = .refused r → exec .txc { s with linkUp := up } = .refused r)

/-- 42_periodic_transmitter.md R142, which the spec derives: the frame of a `TXC` that fires carries every press of
its iteration: requests inverted once a press, counters advanced once a press modulo 254 (43_request_state.md R150 to
R155). -/
def Obligations.FrameReportsEveryPressOfItsIteration : Prop :=
  ∀ (presses : List (Time × Instr)) (now : Time) (s : State), s.Legal → s.phase = .input →
    (∀ op ∈ presses, isButton op.2 = true) → 500 ≤ (now - s.tTx).toNat →
    ∃ (t : State) (cr mr p n c : Byte), runOps (presses ++ [(now, .txc)]) s = .next t ∧
      t.txOut = s.txOut ++ [cr, mr, p, n, c, cr ^^^ mr ^^^ p ^^^ n ^^^ c, 0xFE, 0xFF] ∧
      cr.toNat = (s.camReq.toNat + (presses.map Prod.snd).count .btnCam) % 2 ∧
      mr.toNat = (s.micReq.toNat + (presses.map Prod.snd).count .btnMic) % 2 ∧
      p.toNat = (s.plusCnt.toNat + (presses.map Prod.snd).count .btnPlus) % 254 ∧
      n.toNat = (s.minusCnt.toNat + (presses.map Prod.snd).count .btnMinus) % 254 ∧
      c.toNat = (s.shotCnt.toNat + (presses.map Prod.snd).count .btnShot) % 254

/-- 42_periodic_transmitter.md R143, which the spec derives: in a run with no `RST` and non-decreasing real time, any
two frames, and the last one before the run, are at least 500 ms apart; and a `TXC` 500 ms or more after the last
frame emits one. -/
def Obligations.FramesAreAtLeastThePeriodApart : Prop :=
  (∀ (ops : List (Nat × Instr)) (s : State) (before : Nat), s.tTx = BitVec.ofNat 32 before →
    (∀ op ∈ ops, op.2 ≠ .rst) → List.Pairwise (· ≤ ·) (before :: ops.map Prod.fst) →
    List.Pairwise (fun a b => a + 500 ≤ b) (before :: emitTimes ops s)) ∧
  (∀ (s : State) (before now : Nat), s.Legal → s.phase = .input → s.tTx = BitVec.ofNat 32 before →
    before + 500 ≤ now → now - before < 2 ^ 32 → emitTimes [(now, .txc)] s = [now])

/-- 30_encoding.md R77, which the spec derives: in a stream of outbound frames the pair (0xFE, 0xFF) stands at
consecutive positions exactly at offsets 6 and 7 of each frame. -/
def Obligations.OutboundDelimiterOnlyAtFrameEnds : Prop :=
  ∀ s : State, s.Inv → ∀ i : Nat,
    (s.txOut[i]? = some 0xFE ∧ s.txOut[i + 1]? = some 0xFF) ↔ (i % 8 = 6 ∧ i < s.txOut.length)

/-! ### WDT and the link -/

/-- `WDT` as 41_link_state_machine.md R122 gives it: the link goes Down when 2000 ms or more have elapsed, else stays;
the input phase begins; everything else is unchanged; out of phase it is refused. -/
def Obligations.WdtFollowsItsRule : Prop :=
  ∀ s : State,
    (s.phase = .rx → exec .wdt s = .next { s with
      linkUp := if 2000 ≤ (s.now - s.tRx).toNat then false else s.linkUp, phase := .input }) ∧
    (s.phase = .input → exec .wdt s = .refused (.outOfPhase .rx .input))

/-- 41_link_state_machine.md R123, whose last sentence the spec derives: an operation that takes the link from Down to
Up is an `RXB` that accepts a frame; one that takes it from Up to Down is a `WDT` whose timeout has elapsed, or `RST`.
-/
def Obligations.OnlyAnAcceptedFrameBringsTheLinkUp : Prop :=
  ∀ (i : Instr) (s t : State), exec i s = .next t →
    (s.linkUp = false → t.linkUp = true → acceptsFrame i s = true) ∧
    (s.linkUp = true → t.linkUp = false → (i = .wdt ∧ 2000 ≤ (s.now - s.tRx).toNat) ∨ i = .rst)

/-- 41_link_state_machine.md R124, which the spec derives: after a `WDT` at real time `w`, in a run from a reset with
non-decreasing time and less than 2^32 ms since the last accepted frame, the link is Up exactly when some frame has
been accepted since that reset and the last one less than 2000 ms ago. -/
def Obligations.LinkIsUpExactlyAfterARecentFrame : Prop :=
  ∀ (s₀ s t : State) (ops : List (Nat × Instr)) (w : Nat), exec .rst s₀ = .next s →
    (∀ op ∈ ops, op.2 ≠ .rst) → List.Pairwise (· ≤ ·) (ops.map Prod.fst ++ [w]) →
    (∀ τ, (acceptTimes ops s).getLast? = some τ → w - τ < 2 ^ 32) →
    runOps (clocked (ops ++ [(w, .wdt)])) s = .next t →
    (t.linkUp = true ↔ ∃ τ, (acceptTimes ops s).getLast? = some τ ∧ w - τ < 2000)

/-- 41_link_state_machine.md R126, first sentence, which the spec derives: when a frame has been accepted at real time
`τ`, the rest of the drain and a `WDT` less than 2000 ms later leave the link Up, whatever bytes the drain brings. -/
def Obligations.AcceptedFrameKeepsTheLinkUpThroughItsWatchdog : Prop :=
  ∀ (s : State) (τ w : Nat) (bytes : List (Nat × Byte)), s.Legal → s.phase = .rx → s.linkUp = true →
    s.tRx = BitVec.ofNat 32 τ → (∀ x ∈ bytes, τ ≤ x.1 ∧ x.1 ≤ w) → τ ≤ w → w - τ < 2000 →
    List.Pairwise (· ≤ ·) (bytes.map Prod.fst) →
    ∃ t, runOps (clocked (bytes.map (fun x => (x.1, Instr.rxb x.2)) ++ [(w, .wdt)])) s = .next t ∧ t.linkUp = true

/-- 41_link_state_machine.md R127, which the spec derives: from reset, until a frame is accepted, every render point
shows the link Down and both confirmed states off (that they are off at reset is decision D7). -/
def Obligations.RenderShowsDownUntilTheFirstFrame : Prop :=
  ∀ ops : List (Nat × Instr), acceptTimes ops State.reset = [] →
    ∀ cam mic link, Observation.render cam mic link ∈ observations (clocked ops) State.reset →
      link = false ∧ cam = false ∧ mic = false

/-- 70_reset_and_hazards.md R199, which the spec derives: elapsed time is right when time wraps, for any two times
less than 2^32 ms apart. -/
def Obligations.ElapsedTimeIsRightAcrossAWrap : Prop :=
  ∀ now before : Nat, before ≤ now → now - before < 2 ^ 32 →
    (sub32 (BitVec.ofNat 32 now) (BitVec.ofNat 32 before)).toNat = now - before

/-- The status outputs equal their registers (10_state.md R34), and the observation points of 70_reset_and_hazards.md
R193: they are shown after each `WDT`, the emitted bytes after each `TXC`, nothing after any other operation. -/
def Obligations.ObservationPointsShowTheOutputs : Prop :=
  ∀ s : State,
    s.outCamActive = s.camActive ∧ s.outMicActive = s.micActive ∧ s.outLinkUp = s.linkUp ∧
    observe .wdt s = some (.render s.camActive s.micActive s.linkUp) ∧
    observe .txc s = some (.iterationEnd s.txOut) ∧
    (∀ i, i ≠ .wdt → i ≠ .txc → observe i s = none)

/-! ### The request state -/

/-- `BTN.CAM` and `BTN.MIC` (43_request_state.md R150, R151): the request is inverted, whatever the confirmed state,
and nothing else changes; out of phase they are refused. -/
def Obligations.ToggleButtonsInvertTheirRequest : Prop :=
  ∀ s : State,
    (s.phase = .input →
      exec .btnCam s = .next { s with camReq := !s.camReq } ∧
      exec .btnMic s = .next { s with micReq := !s.micReq }) ∧
    (s.phase = .rx → exec .btnCam s = .refused (.outOfPhase .input .rx) ∧
      exec .btnMic s = .refused (.outOfPhase .input .rx))

/-- `BTN.PLUS`, `BTN.MINUS` and `BTN.SHOT` (43_request_state.md R152 to R155): each increments its own counter,
wrapping to 0 on reaching 254, and nothing else changes; from 254 and 255 the result is 0; out of phase they are
refused. -/
def Obligations.CounterButtonsIncrementTheirCounter : Prop :=
  ∀ s : State,
    (s.phase = .input →
      exec .btnPlus s = .next { s with plusCnt := if s.plusCnt.toNat + 1 ≥ 254 then 0 else s.plusCnt + 1 } ∧
      exec .btnMinus s = .next { s with minusCnt := if s.minusCnt.toNat + 1 ≥ 254 then 0 else s.minusCnt + 1 } ∧
      exec .btnShot s = .next { s with shotCnt := if s.shotCnt.toNat + 1 ≥ 254 then 0 else s.shotCnt + 1 }) ∧
    (s.phase = .rx → exec .btnPlus s = .refused (.outOfPhase .input .rx) ∧
      exec .btnMinus s = .refused (.outOfPhase .input .rx) ∧ exec .btnShot s = .refused (.outOfPhase .input .rx))

/-- No inbound frame and no watchdog evaluation reads or writes the request state (43_request_state.md R157;
42_periodic_transmitter.md R144; both derived in the spec): with other requests and counters they do the same. -/
def Obligations.ReceivePathIgnoresTheRequestState : Prop :=
  ∀ (i : Instr) (s t : State) (cr mr : Bool) (p n c : Byte), (∃ b, i = .rxb b) ∨ i = .wdt → exec i s = .next t →
    t.camReq = s.camReq ∧ t.micReq = s.micReq ∧ t.plusCnt = s.plusCnt ∧ t.minusCnt = s.minusCnt ∧
      t.shotCnt = s.shotCnt ∧
    exec i { s with camReq := cr, micReq := mr, plusCnt := p, minusCnt := n, shotCnt := c } =
      .next { t with camReq := cr, micReq := mr, plusCnt := p, minusCnt := n, shotCnt := c }

/-! ### Reset -/

/-- `RST` in any state and phase (70_reset_and_hazards.md R190): every register takes its reset value, the time input
restarts at 0, and the bytes already emitted stay. The clause that the events still to come stay too is the model's
choice (log 3, DESIGN CHOICE), not R190's. -/
def Obligations.RstEstablishesEveryRegister : Prop :=
  ∀ s : State,
    exec .rst s = .next
      { rxBuf := [], rxCur := 0, rxPrev := 0x00, camActive := false, micActive := false, linkUp := false, tRx := 0,
        tTx := 0, camReq := false, micReq := false, plusCnt := 0, minusCnt := 0, shotCnt := 0, phase := .rx, now := 0,
        txOut := s.txOut, events := s.events } ∧
    (∀ a, Memory.read [] a = 0)

/-- 70_reset_and_hazards.md R191, which the spec derives: in a run from reset with no press and no further `RST`, in
non-decreasing real time, no frame is emitted before 500 ms, and every frame emitted is 00 00 00 00 00 00 FE FF. -/
def Obligations.FramesAfterResetCarryZeros : Prop :=
  ∀ (ops : List (Nat × Instr)) (t : State), (∀ op ∈ ops, op.2 ≠ .rst ∧ isButton op.2 = false) →
    List.Pairwise (· ≤ ·) (ops.map Prod.fst) → runOps (clocked ops) State.reset = .next t →
    (∀ τ ∈ emitTimes ops State.reset, 500 ≤ τ) ∧
    t.txOut = (List.replicate (emitTimes ops State.reset).length [0, 0, 0, 0, 0, 0, 0xFE, 0xFF]).flatten

/-! ### Invariants and ownership -/

/-- The invariant holds right after reset. -/
def Obligations.ResetStateIsLegalAndFramed : Prop := State.reset.Inv

/-- 10_state.md R39, which the spec derives: every step keeps the bounds of the cursor and the counters and the scan
buffer's canonical form, and keeps the output stream made of whole outbound frames. -/
def Obligations.EveryStepKeepsStatesLegalAndFramed : Prop :=
  ∀ s t : State, s.Inv → step s = .next t → t.Inv

/-- 60_exceptions.md R170, 20_memory.md R51: no step from a legal state faults. -/
def Obligations.LegalStatesNeverFault : Prop :=
  ∀ (s : State) (r : Fault), s.Legal → step s ≠ .fault r

/-- Which operations write which register (10_state.md R20 to R30, R36): a register that an operation changes is one
that its rule lists. The pending events are the model's own field (log 3, DESIGN CHOICE); that they are unchanged is
no rule of the spec. -/
def Obligations.RegistersAreWrittenOnlyByTheirOperations : Prop :=
  ∀ (i : Instr) (s t : State), exec i s = .next t → i ≠ .rst →
    ((∀ b, i ≠ .rxb b) → t.rxBuf = s.rxBuf ∧ t.rxCur = s.rxCur ∧ t.rxPrev = s.rxPrev ∧ t.camActive = s.camActive ∧
      t.micActive = s.micActive ∧ t.tRx = s.tRx) ∧
    ((∀ b, i ≠ .rxb b) → i ≠ .wdt → t.linkUp = s.linkUp) ∧
    (i ≠ .txc → t.tTx = s.tTx ∧ t.txOut = s.txOut) ∧
    (i ≠ .btnCam → t.camReq = s.camReq) ∧
    (i ≠ .btnMic → t.micReq = s.micReq) ∧
    (i ≠ .btnPlus → t.plusCnt = s.plusCnt) ∧
    (i ≠ .btnMinus → t.minusCnt = s.minusCnt) ∧
    (i ≠ .btnShot → t.shotCnt = s.shotCnt) ∧
    (i ≠ .wdt → i ≠ .txc → t.phase = s.phase) ∧
    t.now = s.now ∧ t.events = s.events

/-- 20_memory.md R57: the output stream is only ever appended to, by nothing or by one whole frame of eight bytes. -/
def Obligations.OutputGrowsByWholeFrames : Prop :=
  ∀ (i : Instr) (s t : State), exec i s = .next t →
    t.txOut = s.txOut ∨ (i = .txc ∧ ∃ f, IsOutboundFrame f ∧ t.txOut = s.txOut ++ f)

/-! ### Trace syntax -/

/-- 30_encoding.md R87: the events of each pseudo-operation, all at its time. -/
def Obligations.PseudoOperationsExpand : Prop :=
  (∀ (now : Nat) (c m : Byte), assemble [⟨some now, .pseudo (.rxFrame c m)⟩] =
    [Instr.rxb c, .rxb m, .rxb (c ^^^ m), .rxb 0xFE, .rxb 0xFF].map fun i => ⟨BitVec.ofNat 32 now, encode i⟩) ∧
  (∀ (now : Nat) (c m k : Byte), assemble [⟨some now, .pseudo (.rxFrameK c m k)⟩] =
    [Instr.rxb c, .rxb m, .rxb k, .rxb 0xFE, .rxb 0xFF].map fun i => ⟨BitVec.ofNat 32 now, encode i⟩) ∧
  (∀ (now : Nat) (bytes : List Byte), assemble [⟨some now, .pseudo (.rxRaw bytes)⟩] =
    bytes.map fun b => ⟨BitVec.ofNat 32 now, encode (.rxb b)⟩) ∧
  (∀ now : Nat, assemble [⟨some now, .pseudo .idle⟩] =
    [⟨BitVec.ofNat 32 now, encode .wdt⟩, ⟨BitVec.ofNat 32 now, encode .txc⟩])

/-- The text of every operation (30_encoding.md R86) reads back as the operation. -/
def Obligations.OperationTextReadsBack : Prop :=
  ∀ i : Instr, parseLine i.text = .line ⟨none, .op i⟩
end

