-- ==== Sys2Proof/Laws/Decode.lean ====
section
/-! SUPPORT. Laws/Decode: the fields of an event word, as numbers, and that they determine it. -/

namespace Sys2Proof

theorem opField_toNat (w : EventWord) : (opField w).toNat = w.toNat / 4096 := by
  have := w.isLt
  simp only [opField, BitVec.extractLsb'_toNat, Nat.shiftRight_eq_div_pow]
  omega

theorem zField_toNat (w : EventWord) : (zField w).toNat = w.toNat / 256 % 16 := by
  simp only [zField, BitVec.extractLsb'_toNat, Nat.shiftRight_eq_div_pow]

theorem dataField_toNat (w : EventWord) : (dataField w).toNat = w.toNat % 256 := by
  simp only [dataField, BitVec.extractLsb'_toNat, Nat.shiftRight_eq_div_pow]
  omega

theorem eventWord_toNat (op : BitVec 4) (data : Byte) : (eventWord op data).toNat = op.toNat * 4096 + data.toNat := by
  have h : eventWord op data = (op ++ (0#4 ++ data) : BitVec (4 + (4 + 8))) := by
    unfold eventWord
    rw [BitVec.append_assoc]
    simp
  have hd := data.isLt
  rw [h, BitVec.toNat_append, BitVec.toNat_append, ← Nat.shiftLeft_add_eq_or_of_lt (by simp; omega),
    ← Nat.shiftLeft_add_eq_or_of_lt (by omega), Nat.shiftLeft_eq]
  simp

/-- The three fields determine the word. -/
theorem eventWord_ext {w v : EventWord} (hop : opField w = opField v) (hz : zField w = zField v)
    (hd : dataField w = dataField v) : w = v := by
  have h1 := congrArg BitVec.toNat hop
  have h2 := congrArg BitVec.toNat hz
  have h3 := congrArg BitVec.toNat hd
  rw [opField_toNat, opField_toNat] at h1
  rw [zField_toNat, zField_toNat] at h2
  rw [dataField_toNat, dataField_toNat] at h3
  exact BitVec.eq_of_toNat_eq (by omega)

@[simp] theorem opField_eventWord (op : BitVec 4) (data : Byte) : opField (eventWord op data) = op :=
  BitVec.eq_of_toNat_eq (by have := data.isLt; rw [opField_toNat, eventWord_toNat]; omega)

@[simp] theorem zField_eventWord (op : BitVec 4) (data : Byte) : zField (eventWord op data) = 0 :=
  BitVec.eq_of_toNat_eq (by have := data.isLt; rw [zField_toNat, eventWord_toNat]; simp; omega)

@[simp] theorem dataField_eventWord (op : BitVec 4) (data : Byte) : dataField (eventWord op data) = data :=
  BitVec.eq_of_toNat_eq (by have := data.isLt; rw [dataField_toNat, eventWord_toNat]; omega)

end Sys2Proof
end

