-- ==== Sys2Proof/Laws/Memory.lean ====
section
/-! SUPPORT. Laws/Memory: reads and writes of the scan buffer, and its canonical form. -/

namespace Sys2Proof.Machine

@[simp] theorem Memory.read_nil (a : Nat) : Memory.read [] a = Memory.unlisted := rfl

/-- Below every listed address, memory reads as unlisted. -/
theorem Memory.read_eq_unlisted_of_lt {m : Memory} {a : Nat} (h : ∀ p ∈ m, a < p.1) :
    Memory.read m a = Memory.unlisted := by
  induction m with
  | nil => rfl
  | cons p m ih =>
    have hp : a < p.1 := h p (List.mem_cons_self ..)
    have hne : p.1 ≠ a := by omega
    simp only [Memory.read, if_neg hne]
    exact ih fun q hq => h q (List.mem_cons_of_mem _ hq)

/-- A write leaves every other address alone. -/
theorem Memory.read_write_other (m : Memory) {a b : Nat} (v : Byte) (h : b ≠ a) :
    Memory.read (Memory.write m a v) b = Memory.read m b := by
  induction m with
  | nil =>
    by_cases hv : v = Memory.unlisted
    · simp [Memory.write, hv]
    · simp [Memory.write, hv, Memory.read, h.symm]
  | cons p m ih =>
    simp only [Memory.write]
    split_ifs with h1 h2 h3 h4
    · rfl
    · simp [Memory.read, h.symm]
    · subst h3; simp [Memory.read, h.symm]
    · subst h3; simp [Memory.read, h.symm]
    · simp only [Memory.read, ih]

/-- A read after a write to the same address gives the value written. -/
theorem Memory.read_write_same {m : Memory} (hm : m.Pairwise (fun p q => p.1 < q.1)) (a : Nat) (v : Byte) :
    Memory.read (Memory.write m a v) a = v := by
  induction m with
  | nil =>
    by_cases hv : v = Memory.unlisted
    · simp [Memory.write, hv]
    · simp [Memory.write, hv, Memory.read]
  | cons p m ih =>
    obtain ⟨hp, hm'⟩ := List.pairwise_cons.1 hm
    simp only [Memory.write]
    split_ifs with h1 h2 h3 h4
    · subst h2
      refine Memory.read_eq_unlisted_of_lt ?_
      rintro q (_ | ⟨_, hq⟩)
      · exact h1
      · exact h1.trans (hp q hq)
    · simp [Memory.read]
    · subst h4
      exact Memory.read_eq_unlisted_of_lt fun q hq => h3 ▸ hp q hq
    · simp [Memory.read]
    · have hne : p.1 ≠ a := fun h => h3 h.symm
      simp only [Memory.read, if_neg hne]
      exact ih hm'

/-- Every entry after a write is an old entry or the one written. -/
theorem Memory.mem_write {m : Memory} {a : Nat} {v : Byte} {p : Host.Cell} (h : p ∈ Memory.write m a v) :
    p ∈ m ∨ (p = (a, v) ∧ v ≠ Memory.unlisted) := by
  induction m with
  | nil =>
    by_cases hv : v = Memory.unlisted
    · simp [Memory.write, hv] at h
    · simp only [Memory.write, if_neg hv, List.mem_singleton] at h
      exact .inr ⟨h, hv⟩
  | cons q m ih =>
    simp only [Memory.write] at h
    split_ifs at h with h1 h2 h3 h4
    · exact .inl h
    · rcases List.mem_cons.1 h with rfl | h
      · exact .inr ⟨rfl, h2⟩
      · exact .inl h
    · exact .inl (List.mem_cons_of_mem _ h)
    · rcases List.mem_cons.1 h with rfl | h
      · exact .inr ⟨rfl, h4⟩
      · exact .inl (List.mem_cons_of_mem _ h)
    · rcases List.mem_cons.1 h with rfl | h
      · exact .inl (List.mem_cons_self ..)
      · rcases ih h with h | h
        · exact .inl (List.mem_cons_of_mem _ h)
        · exact .inr h

/-- A write inside the buffer keeps the canonical form. -/
theorem Memory.wf_write {m : Memory} (hm : Memory.wf m) {a : Nat} (ha : a < Config.rxbufLen) (v : Byte) :
    Memory.wf (Memory.write m a v) := by
  obtain ⟨hs, he⟩ := hm
  refine ⟨?_, fun p hp => ?_⟩
  · clear he
    induction m with
    | nil => by_cases hv : v = Memory.unlisted <;> simp [Memory.write, hv]
    | cons q m ih =>
      obtain ⟨hq, hs'⟩ := List.pairwise_cons.1 hs
      simp only [Memory.write]
      split_ifs with h1 h2 h3 h4
      · exact hs
      · refine List.pairwise_cons.2 ⟨?_, hs⟩
        rintro r (_ | ⟨_, hr⟩)
        · exact h1
        · exact h1.trans (hq r hr)
      · exact hs'
      · exact List.pairwise_cons.2 ⟨fun r hr => h3 ▸ hq r hr, hs'⟩
      · refine List.pairwise_cons.2 ⟨fun r hr => ?_, ih hs'⟩
        rcases Memory.mem_write hr with hr | ⟨rfl, -⟩
        · exact hq r hr
        · show q.1 < a
          omega
  · rcases Memory.mem_write hp with hp | ⟨rfl, hv⟩
    · exact he p hp
    · exact ⟨ha, hv⟩

/-- Canonical memories that read the same everywhere are the same data. -/
theorem Memory.ext_of_read {m n : Memory} (hm : Memory.wf m) (hn : Memory.wf n)
    (h : ∀ a, Memory.read m a = Memory.read n a) : m = n := by
  induction m generalizing n with
  | nil =>
    cases n with
    | nil => rfl
    | cons q n =>
      have := h q.1
      simp only [Memory.read, if_true] at this
      exact absurd this.symm (hn.2 q (List.mem_cons_self ..)).2
  | cons p m ih =>
    obtain ⟨⟨hp, hs⟩, he⟩ := And.imp_left List.pairwise_cons.1 hm
    have hpv := (he p (List.mem_cons_self ..)).2
    cases n with
    | nil =>
      have := h p.1
      simp only [Memory.read, if_true] at this
      exact absurd this hpv
    | cons q n =>
      obtain ⟨⟨hq, ht⟩, hf⟩ := And.imp_left List.pairwise_cons.1 hn
      have hqv := (hf q (List.mem_cons_self ..)).2
      have hlow : ∀ {a : Nat}, a < q.1 → Memory.read (q :: n) a = Memory.unlisted := fun ha =>
        Memory.read_eq_unlisted_of_lt (by rintro r (_ | ⟨_, hr⟩); exacts [ha, ha.trans (hq r hr)])
      have hlow' : ∀ {a : Nat}, a < p.1 → Memory.read (p :: m) a = Memory.unlisted := fun ha =>
        Memory.read_eq_unlisted_of_lt (by rintro r (_ | ⟨_, hr⟩); exacts [ha, ha.trans (hp r hr)])
      have hpr : Memory.read (p :: m) p.1 = p.2 := by simp [Memory.read]
      have hqr : Memory.read (q :: n) q.1 = q.2 := by simp [Memory.read]
      have hle : p.1 = q.1 := by
        rcases Nat.lt_trichotomy p.1 q.1 with hlt | heq | hlt
        · exact absurd (hpr.symm.trans ((h p.1).trans (hlow hlt))) hpv
        · exact heq
        · exact absurd (hqr.symm.trans ((h q.1).symm.trans (hlow' hlt))) hqv
      have hval : p.2 = q.2 := by rw [← hpr, ← hqr, hle]; exact h q.1
      have hpq : p = q := Prod.ext hle hval
      subst hpq
      have hrest : m = n := ih ⟨hs, fun r hr => he r (List.mem_cons_of_mem _ hr)⟩
        ⟨ht, fun r hr => hf r (List.mem_cons_of_mem _ hr)⟩ (fun a => by
          by_cases ha : p.1 = a
          · subst ha
            rw [Memory.read_eq_unlisted_of_lt hp, Memory.read_eq_unlisted_of_lt hq]
          · have := h a
            simpa only [Memory.read, if_neg ha] using this)
      rw [hrest]

end Sys2Proof.Machine
end

