-- ==== Sys2Proof/Laws/Operands.lean ====
section
/-! SUPPORT. Laws/Operands: the parameters' values and the small facts of the operators over them. -/

namespace Sys2Proof.Config

@[simp] theorem rxbufLen_eq : rxbufLen = 5 := rfl
@[simp] theorem delim0_eq : delim0 = 0xFE := rfl
@[simp] theorem delim1_eq : delim1 = 0xFF := rfl
@[simp] theorem inFrameLen_eq : inFrameLen = 5 := rfl
@[simp] theorem outFrameLen_eq : outFrameLen = 8 := rfl
@[simp] theorem serialTimeoutMs_eq : serialTimeoutMs = 2000 := rfl
@[simp] theorem txPeriodMs_eq : txPeriodMs = 500 := rfl
@[simp] theorem counterMod_eq : counterMod = 254 := rfl
@[simp] theorem timeBits_eq : timeBits = 32 := rfl
@[simp] theorem initLinkUp_eq : initLinkUp = false := rfl
@[simp] theorem toggleBasis_eq : toggleBasis = .request := rfl

end Sys2Proof.Config

namespace Sys2Proof.Machine

@[simp] theorem Memory.unlisted_eq : Memory.unlisted = 0 := rfl

theorem byte2bool_bool2byte (x : Bool) : byte2bool (bool2byte x) = x := by cases x <;> rfl

theorem byte2bool_iff (v : Byte) : byte2bool v = true ↔ v ≠ 0 := by simp [byte2bool]

theorem xorfold_two (a b : Byte) : xorfold [a, b] = a ^^^ b := by simp [xorfold]

theorem xorfold_five (a b c d e : Byte) : xorfold [a, b, c, d, e] = a ^^^ b ^^^ c ^^^ d ^^^ e := by simp [xorfold]

theorem elapsedAtLeast_iff (ms : Nat) (now since : Time) :
    elapsedAtLeast ms now since = true ↔ ms ≤ (now - since).toNat := by
  rw [elapsedAtLeast, decide_eq_true_eq, sub32]

theorem elapsedAtLeast_eq_false_iff (ms : Nat) (now since : Time) :
    elapsedAtLeast ms now since = false ↔ (now - since).toNat < ms := by
  rw [elapsedAtLeast, decide_eq_false_iff_not, sub32, Nat.not_le]

/-- A legal cursor stays legal. -/
theorem nextCursor_le (c : Cursor) : (nextCursor c).toNat ≤ 4 := by revert c; decide

/-- From a legal cursor, a store advances it modulo 5. -/
theorem nextCursor_toNat {c : Cursor} (h : c.toNat ≤ 4) : (nextCursor c).toNat = (c.toNat + 1) % 5 := by
  revert c; decide

/-- Below the last legal value the increment adds one; from it on, it gives 0 (43_request_state.md R155). -/
theorem inc254_cases (c : Byte) :
    (c.toNat ≤ 252 ∧ (inc254 c).toNat = c.toNat + 1) ∨ (253 ≤ c.toNat ∧ inc254 c = 0) := by
  by_cases h : 253 ≤ c.toNat
  · exact .inr ⟨h, if_pos (by simpa using h)⟩
  · have h1 : inc254 c = c + 1 := if_neg (by simpa using h)
    exact .inl ⟨by omega, by rw [h1, BitVec.toNat_add]; simp; omega⟩

/-- The counters' range is closed under increment, from any value. -/
theorem inc254_le (c : Byte) : (inc254 c).toNat ≤ 253 := by
  rcases inc254_cases c with ⟨_, h⟩ | ⟨_, h⟩
  · omega
  · simp [h]

/-- From a legal value, the increment counts modulo 254. -/
theorem inc254_toNat {c : Byte} (h : c.toNat ≤ 253) : (inc254 c).toNat = (c.toNat + 1) % 254 := by
  rcases inc254_cases c with ⟨h1, h2⟩ | ⟨h1, h2⟩
  · omega
  · have : c.toNat = 253 := by omega
    simp [h2, this]

theorem counterLegal_iff (c : Byte) : counterLegal c = true ↔ c.toNat ≤ 253 := by
  rw [counterLegal, decide_eq_true_eq, Config.counterMod_eq]; omega

theorem countersLegal_iff (s : State) :
    countersLegal s = true ↔ s.plusCnt.toNat ≤ 253 ∧ s.minusCnt.toNat ≤ 253 ∧ s.shotCnt.toNat ≤ 253 := by
  simp [countersLegal, counterLegal_iff, and_assoc]

theorem isBoundary_iff (s : State) (b : Byte) : isBoundary s b = true ↔ s.rxPrev = 0xFE ∧ b = 0xFF := by
  simp [isBoundary]

theorem isBoundary_eq_false_iff (s : State) (b : Byte) :
    isBoundary s b = false ↔ ¬(s.rxPrev = 0xFE ∧ b = 0xFF) := by
  rw [← isBoundary_iff, Bool.not_eq_true]

theorem linkTimedOut_iff (now tRx : Time) : linkTimedOut now tRx = true ↔ 2000 ≤ (now - tRx).toNat :=
  elapsedAtLeast_iff _ _ _

theorem transmitDue_iff (s : State) : transmitDue s = true ↔ 500 ≤ (s.now - s.tTx).toNat :=
  elapsedAtLeast_iff _ _ _

end Sys2Proof.Machine
end

