-- ==== Sys2Proof/Laws/State.lean ====
section
/-! SUPPORT. Laws/State: one lemma per field per named update of the state, each true by definition. -/

namespace Sys2Proof.Machine

/-! ### accept -/

@[simp] theorem accept_rxBuf (c m : Byte) (s : State) : (accept c m s).rxBuf = s.rxBuf := rfl
@[simp] theorem accept_rxCur (c m : Byte) (s : State) : (accept c m s).rxCur = s.rxCur := rfl
@[simp] theorem accept_rxPrev (c m : Byte) (s : State) : (accept c m s).rxPrev = s.rxPrev := rfl
@[simp] theorem accept_camActive (c m : Byte) (s : State) : (accept c m s).camActive = byte2bool c := rfl
@[simp] theorem accept_micActive (c m : Byte) (s : State) : (accept c m s).micActive = byte2bool m := rfl
@[simp] theorem accept_linkUp (c m : Byte) (s : State) : (accept c m s).linkUp = true := rfl
@[simp] theorem accept_tRx (c m : Byte) (s : State) : (accept c m s).tRx = s.now := rfl
@[simp] theorem accept_tTx (c m : Byte) (s : State) : (accept c m s).tTx = s.tTx := rfl
@[simp] theorem accept_camReq (c m : Byte) (s : State) : (accept c m s).camReq = s.camReq := rfl
@[simp] theorem accept_micReq (c m : Byte) (s : State) : (accept c m s).micReq = s.micReq := rfl
@[simp] theorem accept_plusCnt (c m : Byte) (s : State) : (accept c m s).plusCnt = s.plusCnt := rfl
@[simp] theorem accept_minusCnt (c m : Byte) (s : State) : (accept c m s).minusCnt = s.minusCnt := rfl
@[simp] theorem accept_shotCnt (c m : Byte) (s : State) : (accept c m s).shotCnt = s.shotCnt := rfl
@[simp] theorem accept_phase (c m : Byte) (s : State) : (accept c m s).phase = s.phase := rfl
@[simp] theorem accept_now (c m : Byte) (s : State) : (accept c m s).now = s.now := rfl
@[simp] theorem accept_txOut (c m : Byte) (s : State) : (accept c m s).txOut = s.txOut := rfl
@[simp] theorem accept_events (c m : Byte) (s : State) : (accept c m s).events = s.events := rfl

/-! ### evaluateWatchdog -/

@[simp] theorem evaluateWatchdog_rxBuf (s : State) : (evaluateWatchdog s).rxBuf = s.rxBuf := rfl
@[simp] theorem evaluateWatchdog_rxCur (s : State) : (evaluateWatchdog s).rxCur = s.rxCur := rfl
@[simp] theorem evaluateWatchdog_rxPrev (s : State) : (evaluateWatchdog s).rxPrev = s.rxPrev := rfl
@[simp] theorem evaluateWatchdog_camActive (s : State) : (evaluateWatchdog s).camActive = s.camActive := rfl
@[simp] theorem evaluateWatchdog_micActive (s : State) : (evaluateWatchdog s).micActive = s.micActive := rfl
@[simp] theorem evaluateWatchdog_linkUp (s : State) : (evaluateWatchdog s).linkUp = linkAfterWatchdog s.now s.tRx s.linkUp := rfl
@[simp] theorem evaluateWatchdog_tRx (s : State) : (evaluateWatchdog s).tRx = s.tRx := rfl
@[simp] theorem evaluateWatchdog_tTx (s : State) : (evaluateWatchdog s).tTx = s.tTx := rfl
@[simp] theorem evaluateWatchdog_camReq (s : State) : (evaluateWatchdog s).camReq = s.camReq := rfl
@[simp] theorem evaluateWatchdog_micReq (s : State) : (evaluateWatchdog s).micReq = s.micReq := rfl
@[simp] theorem evaluateWatchdog_plusCnt (s : State) : (evaluateWatchdog s).plusCnt = s.plusCnt := rfl
@[simp] theorem evaluateWatchdog_minusCnt (s : State) : (evaluateWatchdog s).minusCnt = s.minusCnt := rfl
@[simp] theorem evaluateWatchdog_shotCnt (s : State) : (evaluateWatchdog s).shotCnt = s.shotCnt := rfl
@[simp] theorem evaluateWatchdog_phase (s : State) : (evaluateWatchdog s).phase = s.phase := rfl
@[simp] theorem evaluateWatchdog_now (s : State) : (evaluateWatchdog s).now = s.now := rfl
@[simp] theorem evaluateWatchdog_txOut (s : State) : (evaluateWatchdog s).txOut = s.txOut := rfl
@[simp] theorem evaluateWatchdog_events (s : State) : (evaluateWatchdog s).events = s.events := rfl

/-! ### emit -/

@[simp] theorem emit_rxBuf (f : List Byte) (s : State) : (emit f s).rxBuf = s.rxBuf := rfl
@[simp] theorem emit_rxCur (f : List Byte) (s : State) : (emit f s).rxCur = s.rxCur := rfl
@[simp] theorem emit_rxPrev (f : List Byte) (s : State) : (emit f s).rxPrev = s.rxPrev := rfl
@[simp] theorem emit_camActive (f : List Byte) (s : State) : (emit f s).camActive = s.camActive := rfl
@[simp] theorem emit_micActive (f : List Byte) (s : State) : (emit f s).micActive = s.micActive := rfl
@[simp] theorem emit_linkUp (f : List Byte) (s : State) : (emit f s).linkUp = s.linkUp := rfl
@[simp] theorem emit_tRx (f : List Byte) (s : State) : (emit f s).tRx = s.tRx := rfl
@[simp] theorem emit_tTx (f : List Byte) (s : State) : (emit f s).tTx = s.tTx := rfl
@[simp] theorem emit_camReq (f : List Byte) (s : State) : (emit f s).camReq = s.camReq := rfl
@[simp] theorem emit_micReq (f : List Byte) (s : State) : (emit f s).micReq = s.micReq := rfl
@[simp] theorem emit_plusCnt (f : List Byte) (s : State) : (emit f s).plusCnt = s.plusCnt := rfl
@[simp] theorem emit_minusCnt (f : List Byte) (s : State) : (emit f s).minusCnt = s.minusCnt := rfl
@[simp] theorem emit_shotCnt (f : List Byte) (s : State) : (emit f s).shotCnt = s.shotCnt := rfl
@[simp] theorem emit_phase (f : List Byte) (s : State) : (emit f s).phase = s.phase := rfl
@[simp] theorem emit_now (f : List Byte) (s : State) : (emit f s).now = s.now := rfl
@[simp] theorem emit_txOut (f : List Byte) (s : State) : (emit f s).txOut = s.txOut ++ f := rfl
@[simp] theorem emit_events (f : List Byte) (s : State) : (emit f s).events = s.events := rfl

/-! ### atTime -/

@[simp] theorem atTime_rxBuf (s : State) (now : Time) : (s.atTime now).rxBuf = s.rxBuf := rfl
@[simp] theorem atTime_rxCur (s : State) (now : Time) : (s.atTime now).rxCur = s.rxCur := rfl
@[simp] theorem atTime_rxPrev (s : State) (now : Time) : (s.atTime now).rxPrev = s.rxPrev := rfl
@[simp] theorem atTime_camActive (s : State) (now : Time) : (s.atTime now).camActive = s.camActive := rfl
@[simp] theorem atTime_micActive (s : State) (now : Time) : (s.atTime now).micActive = s.micActive := rfl
@[simp] theorem atTime_linkUp (s : State) (now : Time) : (s.atTime now).linkUp = s.linkUp := rfl
@[simp] theorem atTime_tRx (s : State) (now : Time) : (s.atTime now).tRx = s.tRx := rfl
@[simp] theorem atTime_tTx (s : State) (now : Time) : (s.atTime now).tTx = s.tTx := rfl
@[simp] theorem atTime_camReq (s : State) (now : Time) : (s.atTime now).camReq = s.camReq := rfl
@[simp] theorem atTime_micReq (s : State) (now : Time) : (s.atTime now).micReq = s.micReq := rfl
@[simp] theorem atTime_plusCnt (s : State) (now : Time) : (s.atTime now).plusCnt = s.plusCnt := rfl
@[simp] theorem atTime_minusCnt (s : State) (now : Time) : (s.atTime now).minusCnt = s.minusCnt := rfl
@[simp] theorem atTime_shotCnt (s : State) (now : Time) : (s.atTime now).shotCnt = s.shotCnt := rfl
@[simp] theorem atTime_phase (s : State) (now : Time) : (s.atTime now).phase = s.phase := rfl
@[simp] theorem atTime_now (s : State) (now : Time) : (s.atTime now).now = now := rfl
@[simp] theorem atTime_txOut (s : State) (now : Time) : (s.atTime now).txOut = s.txOut := rfl
@[simp] theorem atTime_events (s : State) (now : Time) : (s.atTime now).events = s.events := rfl

/-! ### withEvents -/

@[simp] theorem withEvents_rxBuf (s : State) (es : List Event) : (s.withEvents es).rxBuf = s.rxBuf := rfl
@[simp] theorem withEvents_rxCur (s : State) (es : List Event) : (s.withEvents es).rxCur = s.rxCur := rfl
@[simp] theorem withEvents_rxPrev (s : State) (es : List Event) : (s.withEvents es).rxPrev = s.rxPrev := rfl
@[simp] theorem withEvents_camActive (s : State) (es : List Event) : (s.withEvents es).camActive = s.camActive := rfl
@[simp] theorem withEvents_micActive (s : State) (es : List Event) : (s.withEvents es).micActive = s.micActive := rfl
@[simp] theorem withEvents_linkUp (s : State) (es : List Event) : (s.withEvents es).linkUp = s.linkUp := rfl
@[simp] theorem withEvents_tRx (s : State) (es : List Event) : (s.withEvents es).tRx = s.tRx := rfl
@[simp] theorem withEvents_tTx (s : State) (es : List Event) : (s.withEvents es).tTx = s.tTx := rfl
@[simp] theorem withEvents_camReq (s : State) (es : List Event) : (s.withEvents es).camReq = s.camReq := rfl
@[simp] theorem withEvents_micReq (s : State) (es : List Event) : (s.withEvents es).micReq = s.micReq := rfl
@[simp] theorem withEvents_plusCnt (s : State) (es : List Event) : (s.withEvents es).plusCnt = s.plusCnt := rfl
@[simp] theorem withEvents_minusCnt (s : State) (es : List Event) : (s.withEvents es).minusCnt = s.minusCnt := rfl
@[simp] theorem withEvents_shotCnt (s : State) (es : List Event) : (s.withEvents es).shotCnt = s.shotCnt := rfl
@[simp] theorem withEvents_phase (s : State) (es : List Event) : (s.withEvents es).phase = s.phase := rfl
@[simp] theorem withEvents_now (s : State) (es : List Event) : (s.withEvents es).now = s.now := rfl
@[simp] theorem withEvents_txOut (s : State) (es : List Event) : (s.withEvents es).txOut = s.txOut := rfl
@[simp] theorem withEvents_events (s : State) (es : List Event) : (s.withEvents es).events = s.events ++ es := rfl

/-! ### placeWord -/

@[simp] theorem placeWord_rxBuf (s : State) (w : EventWord) : (placeWord s w).rxBuf = s.rxBuf := rfl
@[simp] theorem placeWord_rxCur (s : State) (w : EventWord) : (placeWord s w).rxCur = s.rxCur := rfl
@[simp] theorem placeWord_rxPrev (s : State) (w : EventWord) : (placeWord s w).rxPrev = s.rxPrev := rfl
@[simp] theorem placeWord_camActive (s : State) (w : EventWord) : (placeWord s w).camActive = s.camActive := rfl
@[simp] theorem placeWord_micActive (s : State) (w : EventWord) : (placeWord s w).micActive = s.micActive := rfl
@[simp] theorem placeWord_linkUp (s : State) (w : EventWord) : (placeWord s w).linkUp = s.linkUp := rfl
@[simp] theorem placeWord_tRx (s : State) (w : EventWord) : (placeWord s w).tRx = s.tRx := rfl
@[simp] theorem placeWord_tTx (s : State) (w : EventWord) : (placeWord s w).tTx = s.tTx := rfl
@[simp] theorem placeWord_camReq (s : State) (w : EventWord) : (placeWord s w).camReq = s.camReq := rfl
@[simp] theorem placeWord_micReq (s : State) (w : EventWord) : (placeWord s w).micReq = s.micReq := rfl
@[simp] theorem placeWord_plusCnt (s : State) (w : EventWord) : (placeWord s w).plusCnt = s.plusCnt := rfl
@[simp] theorem placeWord_minusCnt (s : State) (w : EventWord) : (placeWord s w).minusCnt = s.minusCnt := rfl
@[simp] theorem placeWord_shotCnt (s : State) (w : EventWord) : (placeWord s w).shotCnt = s.shotCnt := rfl
@[simp] theorem placeWord_phase (s : State) (w : EventWord) : (placeWord s w).phase = phaseFor w s.phase := rfl
@[simp] theorem placeWord_now (s : State) (w : EventWord) : (placeWord s w).now = s.now := rfl
@[simp] theorem placeWord_txOut (s : State) (w : EventWord) : (placeWord s w).txOut = s.txOut := rfl
@[simp] theorem placeWord_events (s : State) (w : EventWord) : (placeWord s w).events = ⟨s.now, w⟩ :: s.events := rfl

@[simp] theorem atTime_atTime (s : State) (a b : Time) : (s.atTime a).atTime b = s.atTime b := rfl

@[simp] theorem atTime_now_self (s : State) : s.atTime s.now = s := rfl

end Sys2Proof.Machine
end

