-- ==== Sys2Proof/Laws/Meanings.lean ====
section
/-! SUPPORT. Laws/Meanings: for each shared operation and each meaning, once, everything it can answer. -/

namespace Sys2Proof.Machine

/-! ### Shared operations -/

@[simp] theorem andThen_next (t : State) (k : State → Answer) : andThen (.next t) k = k t := rfl
@[simp] theorem andThen_fault (r : Fault) (k : State → Answer) : andThen (.fault r) k = .fault r := rfl
@[simp] theorem andThen_refused (r : Refusal) (k : State → Answer) : andThen (.refused r) k = .refused r := rfl

theorem andThen_eq_next_iff (o : Answer) (k : State → Answer) (u : State) :
    andThen o k = .next u ↔ ∃ t, o = .next t ∧ k t = .next u := by
  cases o <;> simp

theorem requirePhase_of_eq {p : Phase} {s : State} (h : s.phase = p) (o : Answer) : requirePhase p s o = o :=
  if_pos h

theorem requirePhase_of_ne {p : Phase} {s : State} (h : s.phase ≠ p) (o : Answer) :
    requirePhase p s o = .refused (.outOfPhase p s.phase) := if_neg h

theorem requirePhase_eq_next_iff (p : Phase) (s : State) (o : Answer) (t : State) :
    requirePhase p s o = .next t ↔ s.phase = p ∧ o = .next t := by
  by_cases h : s.phase = p <;> simp [requirePhase, h]

theorem requirePhase_eq_fault_iff (p : Phase) (s : State) (o : Answer) (r : Fault) :
    requirePhase p s o = .fault r ↔ s.phase = p ∧ o = .fault r := by
  by_cases h : s.phase = p <;> simp [requirePhase, h]

theorem memRead_of_lt {i : Nat} (h : i < 5) (s : State) (k : Byte → Answer) :
    memRead i s k = k (Memory.read s.rxBuf i) := if_pos h

theorem memWrite_of_lt {i : Nat} (h : i < 5) (v : Byte) (s : State) :
    memWrite i v s = .next { s with rxBuf := Memory.write s.rxBuf i v } := if_pos h

theorem memWrite_of_le {i : Nat} (h : 5 ≤ i) (v : Byte) (s : State) : memWrite i v s = .fault (.bufferIndex i) :=
  if_neg (by simpa using h)

/-! ### RXB -/

/-- The check at a boundary always answers a next state, and says which. -/
theorem checkFrame_eq (s : State) :
    checkFrame s = .next { (if Memory.read s.rxBuf 0 ^^^ Memory.read s.rxBuf 1 = Memory.read s.rxBuf 2 then
      accept (Memory.read s.rxBuf 0) (Memory.read s.rxBuf 1) s else s) with rxCur := 0 } := by
  rw [checkFrame, memRead_of_lt (by omega), memRead_of_lt (by omega), memRead_of_lt (by omega), xorfold_two]

/-- A store inside the buffer. -/
theorem storeByte_of_le {s : State} (h : s.rxCur.toNat ≤ 4) (b : Byte) :
    storeByte b s = .next { s with
      rxBuf := Memory.write s.rxBuf s.rxCur.toNat b, rxPrev := b, rxCur := nextCursor s.rxCur } := by
  rw [storeByte, memWrite_of_lt (by omega), andThen_next]

/-- A store with an illegal cursor. -/
theorem storeByte_of_lt {s : State} (h : 4 < s.rxCur.toNat) (b : Byte) :
    storeByte b s = .fault (.bufferIndex s.rxCur.toNat) := by
  rw [storeByte, memWrite_of_le h, andThen_fault]

/-- Everything `RXB` can do when it answers a next state: one of the three outcomes of 60_exceptions.md R174. -/
theorem execRxb_eq_next_iff (b : Byte) (s t : State) :
    execRxb b s = .next t ↔ s.phase = .rx ∧
      ((s.rxPrev = 0xFE ∧ b = 0xFF ∧ Memory.read s.rxBuf 0 ^^^ Memory.read s.rxBuf 1 = Memory.read s.rxBuf 2 ∧
          t = { accept (Memory.read s.rxBuf 0) (Memory.read s.rxBuf 1) s with rxCur := 0 }) ∨
        (s.rxPrev = 0xFE ∧ b = 0xFF ∧ Memory.read s.rxBuf 0 ^^^ Memory.read s.rxBuf 1 ≠ Memory.read s.rxBuf 2 ∧
          t = { s with rxCur := 0 }) ∨
        (¬(s.rxPrev = 0xFE ∧ b = 0xFF) ∧ s.rxCur.toNat ≤ 4 ∧
          t = { s with
            rxBuf := Memory.write s.rxBuf s.rxCur.toNat b, rxPrev := b, rxCur := nextCursor s.rxCur })) := by
  rw [execRxb, requirePhase_eq_next_iff]
  refine and_congr_right fun _ => ?_
  by_cases hb : isBoundary s b = true
  · obtain ⟨h1, h2⟩ := (isBoundary_iff s b).1 hb
    rw [if_pos hb, checkFrame_eq]
    by_cases hk : Memory.read s.rxBuf 0 ^^^ Memory.read s.rxBuf 1 = Memory.read s.rxBuf 2 <;>
      simp [h1, h2, hk, eq_comm]
  · have hn := (isBoundary_eq_false_iff s b).1 (by simpa using hb)
    rw [if_neg hb]
    by_cases hc : s.rxCur.toNat ≤ 4
    · rw [storeByte_of_le hc]
      constructor
      · intro h
        exact .inr (.inr ⟨hn, hc, by simpa using h.symm⟩)
      · rintro (⟨h1, h2, -⟩ | ⟨h1, h2, -⟩ | ⟨-, -, rfl⟩)
        exacts [absurd ⟨h1, h2⟩ hn, absurd ⟨h1, h2⟩ hn, rfl]
    · rw [storeByte_of_lt (by omega)]
      constructor
      · intro h; cases h
      · rintro (⟨h1, h2, -⟩ | ⟨h1, h2, -⟩ | ⟨-, h, -⟩)
        exacts [absurd ⟨h1, h2⟩ hn, absurd ⟨h1, h2⟩ hn, absurd h hc]

/-- `RXB` faults only on a store with an illegal cursor. -/
theorem execRxb_eq_fault_iff (b : Byte) (s : State) (r : Fault) :
    execRxb b s = .fault r ↔ s.phase = .rx ∧ ¬(s.rxPrev = 0xFE ∧ b = 0xFF) ∧ 4 < s.rxCur.toNat ∧
      r = .bufferIndex s.rxCur.toNat := by
  rw [execRxb, requirePhase_eq_fault_iff]
  refine and_congr_right fun _ => ?_
  by_cases hb : isBoundary s b = true
  · have h := (isBoundary_iff s b).1 hb
    rw [if_pos hb, checkFrame_eq]
    simp [h]
  · have hn := (isBoundary_eq_false_iff s b).1 (by simpa using hb)
    rw [if_neg hb]
    by_cases hc : s.rxCur.toNat ≤ 4
    · rw [storeByte_of_le hc]
      simp [Nat.not_lt.2 hc]
    · rw [storeByte_of_lt (by omega)]
      constructor
      · intro h
        exact ⟨hn, by omega, by simpa using h.symm⟩
      · rintro ⟨-, -, rfl⟩
        rfl

/-! ### WDT, TXC, BTN, RST -/

theorem execWdt_eq_next_iff (s t : State) :
    execWdt s = .next t ↔ s.phase = .rx ∧ t = { evaluateWatchdog s with phase := .input } := by
  rw [execWdt, requirePhase_eq_next_iff]
  simp [eq_comm]

/-- Everything `TXC` can do when it answers a next state. -/
theorem execTxc_eq_next_iff (s t : State) :
    execTxc s = .next t ↔ s.phase = .input ∧
      ((transmitDue s = true ∧ countersLegal s = true ∧
          t = { emit (requestFrame s) s with tTx := s.now, phase := .rx }) ∨
        (transmitDue s = false ∧ t = { s with phase := .rx })) := by
  rw [execTxc, requirePhase_eq_next_iff, andThen_eq_next_iff]
  refine and_congr_right fun _ => ?_
  cases hd : transmitDue s <;> cases hc : countersLegal s <;> simp [fire, hc, eq_comm]

/-- `TXC` faults only when it would emit a reserved counter value. -/
theorem execTxc_eq_fault_iff (s : State) (r : Fault) :
    execTxc s = .fault r ↔
      s.phase = .input ∧ transmitDue s = true ∧ countersLegal s = false ∧ r = .reservedCounter := by
  rw [execTxc, requirePhase_eq_fault_iff]
  refine and_congr_right fun _ => ?_
  cases hd : transmitDue s <;> cases hc : countersLegal s <;> simp [fire, hc, eq_comm]

theorem execBtnCam_eq_next_iff (s t : State) :
    execBtnCam s = .next t ↔ s.phase = .input ∧ t = { s with camReq := !s.camReq } := by
  rw [execBtnCam, requirePhase_eq_next_iff]
  simp [toggled, eq_comm]

theorem execBtnMic_eq_next_iff (s t : State) :
    execBtnMic s = .next t ↔ s.phase = .input ∧ t = { s with micReq := !s.micReq } := by
  rw [execBtnMic, requirePhase_eq_next_iff]
  simp [toggled, eq_comm]

theorem execBtnPlus_eq_next_iff (s t : State) :
    execBtnPlus s = .next t ↔ s.phase = .input ∧ t = { s with plusCnt := inc254 s.plusCnt } := by
  rw [execBtnPlus, requirePhase_eq_next_iff]
  simp [eq_comm]

theorem execBtnMinus_eq_next_iff (s t : State) :
    execBtnMinus s = .next t ↔ s.phase = .input ∧ t = { s with minusCnt := inc254 s.minusCnt } := by
  rw [execBtnMinus, requirePhase_eq_next_iff]
  simp [eq_comm]

theorem execBtnShot_eq_next_iff (s t : State) :
    execBtnShot s = .next t ↔ s.phase = .input ∧ t = { s with shotCnt := inc254 s.shotCnt } := by
  rw [execBtnShot, requirePhase_eq_next_iff]
  simp [eq_comm]

theorem execRst_eq_next_iff (s t : State) :
    execRst s = .next t ↔ t = { State.reset with txOut := s.txOut, events := s.events } := by
  simp [execRst, linkAfterReset, State.reset, eq_comm]

/-! ### Runs -/

@[simp] theorem runOps_nil (s : State) : runOps [] s = .next s := rfl

theorem runOps_cons (now : Time) (i : Instr) (ops : List (Time × Instr)) (s : State) :
    runOps ((now, i) :: ops) s = andThen (exec i (s.atTime now)) (runOps ops) := rfl

theorem runOps_append (as bs : List (Time × Instr)) (s : State) :
    runOps (as ++ bs) s = andThen (runOps as s) (runOps bs) := by
  induction as generalizing s with
  | nil => rfl
  | cons a as ih =>
    rw [List.cons_append, runOps_cons, runOps_cons]
    cases h : exec a.2 (s.atTime a.1) with
    | next t => simp [ih]
    | fault r => rfl
    | refused r => rfl

/-- A property every operation keeps, a run keeps. -/
theorem runOps_keeps {P : State → Prop} (hP : ∀ i s now t, P s → exec i (s.atTime now) = .next t → P t)
    {ops : List (Time × Instr)} {s t : State} (hs : P s) (h : runOps ops s = .next t) : P t := by
  induction ops generalizing s with
  | nil => cases h; exact hs
  | cons a ops ih =>
    rw [runOps_cons, andThen_eq_next_iff] at h
    obtain ⟨u, hu, h⟩ := h
    exact ih (hP _ _ _ _ hs hu) h

/-! ### The step -/

theorem takeEvent_of_nil {s : State} (h : s.events = []) : takeEvent s = none := by simp [takeEvent, h]

theorem takeEvent_of_cons {s : State} {e : Event} {rest : List Event} (h : s.events = e :: rest) :
    takeEvent s = some (e, { s with events := rest }) := by simp [takeEvent, h]

/-- Everything a step can do when it answers a next state. -/
theorem step_eq_next_iff (s t : State) :
    step s = .next t ↔ (s.events = [] ∧ t = s) ∨
      ∃ e rest i, s.events = e :: rest ∧ decode e.word = .op i ∧
        exec i (State.atTime { s with events := rest } e.now) = .next t := by
  cases h : s.events with
  | nil => simp [step, takeEvent_of_nil h, idle, eq_comm]
  | cons e rest =>
    simp only [step, takeEvent_of_cons h, present]
    cases hd : decode e.word <;> simp [hd]

end Sys2Proof.Machine
end

