-- ==== Sys2Proof/Laws/PerInstr.lean ====
section
/-! SUPPORT. Laws/PerInstr: the per-operation family: an operation's word matches its own row of the operation table
(30_encoding.md R82). -/

namespace Sys2Proof.Laws.EncodedRow

/-- The word of the operation matches the operation's row. -/
def Statement (i : Instr) : Prop := matchesRow (encode i) i = true

theorem rxb (b : Byte) : Statement (.rxb b) := by
  unfold Statement; revert b; decide

theorem wdt : Statement .wdt := by unfold Statement; decide
theorem txc : Statement .txc := by unfold Statement; decide
theorem btnCam : Statement .btnCam := by unfold Statement; decide
theorem btnMic : Statement .btnMic := by unfold Statement; decide
theorem btnPlus : Statement .btnPlus := by unfold Statement; decide
theorem btnMinus : Statement .btnMinus := by unfold Statement; decide
theorem btnShot : Statement .btnShot := by unfold Statement; decide
theorem rst : Statement .rst := by unfold Statement; decide

end Sys2Proof.Laws.EncodedRow
end

