-- ==== Sys2Proof/Tests/Slice0.lean ====
section
/-! SUPPORT. Tests: the spec's own vectors (95_test_vectors.md), one step each where one step shows the point, the
WellFormed smoke test, words written out from 30_encoding.md R82, and a witness for the hypotheses of each obligation. -/

namespace Sys2Proof.Tests

open Sys2Proof Sys2Proof.Machine

/-! ### Helpers -/

/-- The next state an answer gives, if it gives one. -/
def nextOf : Answer → Option State
  | .next t => some t
  | .fault _ => none
  | .refused _ => none

/-- Why an answer stops, if it does. -/
def stopOf : Answer → Option (Fault ⊕ Refusal)
  | .next _ => none
  | .fault r => some (.inl r)
  | .refused r => some (.inr r)

/-- Received bytes as operations, all at one time. -/
def received (now : Time) (bytes : List Byte) : List (Time × Instr) := bytes.map fun b => (now, .rxb b)

/-- Received bytes as operations at one real time. -/
def receivedAt (now : Nat) (bytes : List Byte) : List (Nat × Instr) := bytes.map fun b => (now, .rxb b)

/-- Reset, in the phase where inputs are sampled. -/
def sampling : State := { State.reset with phase := .input }

/-- E1's buffer just before its last byte: 01 00 01 FE stored, at time 100. -/
def armed : State :=
  { State.reset with rxBuf := [(0, 0x01), (2, 0x01), (3, 0xFE)], rxCur := 4, rxPrev := 0xFE, now := 100 }

/-- The same with a wrong checksum byte (V-RX-13): 01 00 00 FE stored. -/
def armedBad : State := { armed with rxBuf := [(0, 0x01), (3, 0xFE)] }

/-- Link Up since time 1000 (V-WDT-1, V-WDT-2), at a given time. -/
def upSince1000 (now : Time) : State := { State.reset with linkUp := true, tRx := 1000, now := now }

/-! ### Well-formedness refuses ill-formed terms -/

theorem test_wf_refuses_empty_raw : (TraceLine.mk none (.pseudo (.rxRaw []))).wf = false := by decide
theorem test_wf_refuses_time_over_32_bits : (TraceLine.mk (some 4294967296) (.op .wdt)).wf = false := by decide
theorem test_wf_takes_last_time : (TraceLine.mk (some 4294967295) (.op .wdt)).wf = true := by decide
theorem test_wf_takes_every_byte : ∀ b : Byte, (Instr.rxb b).wf = true := fun _ => rfl

/-! ### Words written out from the encoding (30_encoding.md R82) -/

theorem test_decode_rxb : decode 0b0001000010100101 = .op (.rxb 0xA5) := by decide
theorem test_decode_wdt : decode 0b0010000000000000 = .op .wdt := by decide
theorem test_decode_txc : decode 0b0011000000000000 = .op .txc := by decide
theorem test_decode_btnCam : decode 0b0100000000000000 = .op .btnCam := by decide
theorem test_decode_btnMic : decode 0b0100000000000001 = .op .btnMic := by decide
theorem test_decode_btnPlus : decode 0b0100000000000010 = .op .btnPlus := by decide
theorem test_decode_btnMinus : decode 0b0100000000000011 = .op .btnMinus := by decide
theorem test_decode_btnShot : decode 0b0100000000000100 = .op .btnShot := by decide
theorem test_decode_rst : decode 0b1111000000000000 = .op .rst := by decide

/-- V-ILL-1. -/
theorem test_reject_reserved_op : decode 0x5000 = .rejected .reservedOp := by decide
/-- V-ILL-2. -/
theorem test_reject_button_5 : decode 0x4005 = .rejected .reservedButton := by decide
/-- V-ILL-3. -/
theorem test_reject_wdt_data : decode 0x2001 = .rejected .nonzeroData := by decide
/-- V-ILL-4. -/
theorem test_reject_z : decode 0x1100 = .rejected .nonzeroZ := by decide

/-- The table's encodings, encoded. -/
theorem test_encode_rows : encode (.rxb 0xFE) = 0x10FE ∧ encode .txc = 0x3000 ∧ encode .btnShot = 0x4004 := by decide

/-- V-ILL-1 as a step: refused, by name. -/
theorem test_step_refuses_a_word_that_is_none :
    stopOf (step { State.reset with events := [⟨0, 0x5000⟩] }) = some (.inr (.notAnOperation .reservedOp 0x5000)) := by
  decide

/-- A table word placed for the next step runs, also for an operation that reset's phase would refuse. -/
theorem test_placed_words_run :
    ∀ w ∈ [0x10FF, 0x2000, 0x3000, 0x4000, 0x4001, 0x4002, 0x4003, 0x4004, 0xF000],
      (nextOf (step (State.reset.withFetchWord 16 w))).isSome = true ∧ (decodeTableWord 16 w).isSome = true := by
  decide

/-! ### One step of each operation, against 95_test_vectors.md -/

/-- E1, the last byte: accepted. -/
theorem test_rxb_accepts :
    nextOf (exec (.rxb 0xFF) armed) =
      some { armed with camActive := true, micActive := false, linkUp := true, tRx := 100, rxCur := 0 } := by decide

/-- V-RX-13, the last byte: discarded. -/
theorem test_rxb_discards : nextOf (exec (.rxb 0xFF) armedBad) = some { armedBad with rxCur := 0 } := by decide

/-- V-WDT-1: 1999 ms is not a timeout. -/
theorem test_wdt_1999 : (nextOf (exec .wdt (upSince1000 2999))).map (·.linkUp) = some true := by decide

/-- V-WDT-2: 2000 ms is. -/
theorem test_wdt_2000 : (nextOf (exec .wdt (upSince1000 3000))).map (·.linkUp) = some false := by decide

/-- V-TX-2: 500 ms fires; the checksum of V-ENC-3's payload is 0xFE. -/
theorem test_txc_fires :
    (nextOf (exec .txc { sampling with
      now := 500, camReq := true, micReq := true, plusCnt := 253, minusCnt := 1, shotCnt := 2 })).map
        (fun t => (t.txOut, t.tTx, t.phase)) =
      some ([0x01, 0x01, 0xFD, 0x01, 0x02, 0xFE, 0xFE, 0xFF], 500, .rx) := by decide

/-- V-TX-1: 499 ms does not. -/
theorem test_txc_499 : nextOf (exec .txc { sampling with now := 499 }) = some { State.reset with now := 499 } := by
  decide

/-- V-BTN-2: the request is inverted, the confirmed state ignored. -/
theorem test_btnCam : (nextOf (exec .btnCam { sampling with camReq := true })).map (·.camReq) = some false := by decide

/-- V-BTN-2b. -/
theorem test_btnMic : (nextOf (exec .btnMic { sampling with micActive := true })).map (·.micReq) = some true := by decide

/-- V-BTN-3 and V-BTN-4. -/
theorem test_btnPlus :
    (nextOf (exec .btnPlus { sampling with plusCnt := 253 })).map (·.plusCnt) = some 0 ∧
      (nextOf (exec .btnPlus { sampling with plusCnt := 252 })).map (·.plusCnt) = some 253 := by decide

/-- V-BTN-5. -/
theorem test_btnMinus : (nextOf (exec .btnMinus sampling)).map (·.minusCnt) = some 1 := by decide

/-- V-BTN-6. -/
theorem test_btnShot : (nextOf (exec .btnShot { sampling with shotCnt := 253 })).map (·.shotCnt) = some 0 := by decide

/-- V-RST-1: every register back, the emitted bytes kept. -/
theorem test_rst :
    nextOf (exec .rst { upSince1000 77 with plusCnt := 7, phase := .input, txOut := [0xFF] }) =
      some { State.reset with txOut := [0xFF] } := by decide

/-- V-WDT-8, V-TX-8 and V-BTN-8: refused out of phase. -/
theorem test_out_of_phase :
    stopOf (exec .wdt sampling) = some (.inr (.outOfPhase .rx .input)) ∧
      stopOf (exec .txc State.reset) = some (.inr (.outOfPhase .input .rx)) ∧
      stopOf (exec .btnPlus State.reset) = some (.inr (.outOfPhase .input .rx)) := by decide

/-- V-RX-17: a shifted frame whose cells pass is accepted with values the host did not send. -/
theorem test_shifted_frame_accepted :
    (nextOf (runOps (received 100 [0x00, 0x01, 0x01, 0x00, 0xFE, 0xFF]) State.reset)).map
      (fun t => (t.camActive, t.micActive, t.linkUp, t.rxBuf)) =
      some (false, true, true, [(1, 0x01), (2, 0x01), (4, 0xFE)]) := by decide

/-- V-RX-7: reset's zero takes part in the check. -/
theorem test_stale_cell :
    (nextOf (runOps (received 100 [0xFE, 0xFE, 0xFF]) State.reset)).map
      (fun t => (t.camActive, t.micActive, t.rxBuf)) = some (true, true, [(0, 0xFE), (1, 0xFE)]) := by decide

/-! ### Trace syntax -/

/-- P1's first line: `@100 RXFRAME 1, 0`, with the words P1 gives. -/
theorem test_trace_line :
    parseLine ['@', '1', '0', '0', ' ', 'R', 'X', 'F', 'R', 'A', 'M', 'E', ' ', '1', ',', ' ', '0', ' ', ';', 'x'] =
      .line ⟨some 100, .pseudo (.rxFrame 1 0)⟩ ∧
    assemble [⟨some 100, .pseudo (.rxFrame 1 0)⟩, ⟨none, .op .wdt⟩] =
      [⟨100, 0x1001⟩, ⟨100, 0x1000⟩, ⟨100, 0x1001⟩, ⟨100, 0x10FE⟩, ⟨100, 0x10FF⟩, ⟨100, 0x2000⟩] := by decide

/-- `RXB` takes a hexadecimal byte only, and a name that is none is malformed. -/
theorem test_trace_line_malformed :
    parseLine ['R', 'X', 'B', ' ', '1'] = .malformed ∧ parseLine ['N', 'O', 'P'] = .malformed ∧
      parseLine [' ', ';', 'R', 'S', 'T'] = .blank := by decide

/-! ### Witnesses: states that meet the hypotheses of the obligations -/

/-- `DecodeIsInverseOfEncode`. -/
theorem witness_wf : (Instr.rxb 0xFF).wf = true := rfl

/-- `TableRowsDoNotOverlap`: a word in a row; `DecodeIsTotalAndRefusesTheRest`: a word in none, at each boundary. -/
theorem witness_words :
    (0x10FF : EventWord) &&& 0xFF00 = 0x1000 ∧ decode 0x10FF = .op (.rxb 0xFF) ∧
    ((0x10FF : EventWord).extractLsb' 12 4 = 0x1 ∧ (0x10FF : EventWord).extractLsb' 8 4 = 0) ∧
    ¬((0x4005 : EventWord).extractLsb' 8 8 = 0x40 ∧ ((0x4005 : EventWord).extractLsb' 0 8).toNat ≤ 4) ∧
    ¬((0x4005 : EventWord).extractLsb' 12 4 = 0x1 ∧ (0x4005 : EventWord).extractLsb' 8 4 = 0) ∧
    (0x4005 : EventWord) ≠ 0x2000 ∧ (0x4005 : EventWord) ≠ 0x3000 ∧ (0x4005 : EventWord) ≠ 0xF000 ∧
    ¬((0x1100 : EventWord).extractLsb' 12 4 = 0x1 ∧ (0x1100 : EventWord).extractLsb' 8 4 = 0) ∧
    { State.reset with events := [⟨7, 0x4005⟩] }.events = ⟨7, 0x4005⟩ :: ([] : List Event) := by decide

/-- `StepRunsThePresentedOperation` and `StepsRunThePresentedOperations`. -/
theorem witness_presented :
    { State.reset with events := [⟨7, 0x2000⟩, ⟨8, 0x4002⟩] }.events =
      [((7 : Time), Instr.wdt)].map (fun op => Event.mk op.1 (encode op.2)) ++ [⟨8, 0x4002⟩] ∧
    decode 0x2000 = .op .wdt := by decide

/-- `StepWithNothingPresentedChangesNothing`. -/
theorem witness_nothing_presented : State.reset.events = [] := rfl

/-- `LoopOrderTable`: both phases, and a next state of each shape. -/
theorem witness_loop_order :
    State.reset.phase = .rx ∧ sampling.phase = .input ∧ (nextOf (exec (.rxb 0) State.reset)).isSome = true ∧
      (nextOf (exec .wdt State.reset)).isSome = true ∧ (nextOf (exec .btnShot sampling)).isSome = true ∧
      (nextOf (exec .txc sampling)).isSome = true := by decide

/-- `GrammaticalTracesAreThoseThatRun`: a trace that runs, and one that does not. -/
theorem witness_grammar :
    State.reset.Legal ∧ State.reset.phase = .rx ∧
      (nextOf (runOps [(0, .rxb 1), (0, .wdt), (0, .btnCam), (0, .txc), (0, .wdt), (0, .rst)] State.reset)).isSome =
        true ∧
      nextOf (runOps [(0, .wdt), (0, .rxb 1)] State.reset) = none := by decide

/-- `RxbFollowsItsRule` and `RxbScanBufferFrame`: each case, the store at the last cell and with a 0xFF. -/
theorem witness_rxb :
    armed.phase = .rx ∧ armed.Legal ∧ armed.rxPrev = 0xFE ∧
      Memory.read armed.rxBuf 0 ^^^ Memory.read armed.rxBuf 1 = Memory.read armed.rxBuf 2 ∧
      Memory.read armedBad.rxBuf 0 ^^^ Memory.read armedBad.rxBuf 1 ≠ Memory.read armedBad.rxBuf 2 ∧
      ¬(armed.rxPrev = 0xFE ∧ (0xFE : Byte) = 0xFF) ∧ armed.rxCur.toNat = 4 ∧
      ¬(State.reset.rxPrev = 0xFE ∧ (0xFF : Byte) = 0xFF) := by decide

/-- `StoreOutsideTheScanBufferFaults`, at the boundary. -/
theorem witness_store_outside :
    { State.reset with rxCur := 5 }.phase = .rx ∧ 5 ≤ { State.reset with rxCur := 5 }.rxCur.toNat ∧
      stopOf (exec (.rxb 0) { State.reset with rxCur := 5 }) = some (.inl (.bufferIndex 5)) := by decide

/-- `ReceivedDelim0IsStoredAndArmsTheBoundary`, `BoundaryIsArmedByDelim0ThenOnlyDelim1` and
`NoiseIsStoredAndNeverAccepted`. -/
theorem witness_receiving : State.reset.Legal ∧ State.reset.phase = .rx ∧ State.reset.rxPrev ≠ 0xFE := by decide

/-- `NoiseIsStoredAndNeverAccepted`: a stream without the pair, with both bytes in it. -/
theorem witness_noise (before after : List Byte) : [0xFF, 0xFE] ≠ before ++ (0xFE : Byte) :: 0xFF :: after := by
  rcases before with _ | ⟨a, _ | ⟨b, _ | ⟨c, l⟩⟩⟩ <;> simp

/-- `RepeatedDelim1RepeatsTheOutcome`: a frame that passes, and one that does not. -/
theorem witness_repeat :
    armed.phase = .rx ∧ armed.rxPrev = 0xFE ∧ armedBad.phase = .rx ∧ armedBad.rxPrev = 0xFE ∧
      (nextOf (runOps (received 5 [0xFF, 0xFF]) armed)).map (·.tRx) = some 5 := by decide

/-- `ShortFrameIsCheckedAgainstOlderBytes`: cells that pass, and cells that do not. -/
theorem witness_short_frame :
    { State.reset with rxBuf := [(1, 0xFE)] }.Legal ∧
      (0xFE : Byte) ^^^ Memory.read [(1, 0xFE)] 1 = Memory.read [(1, 0xFE)] 2 ∧
      (0xFE : Byte) ^^^ Memory.read State.reset.rxBuf 1 ≠ Memory.read State.reset.rxBuf 2 ∧ State.reset.rxCur = 0 ∧
      Instr.rst ≠ .wdt := by decide

/-- `DecoderResynchronises`: a frame alone, and garbage before two frames. -/
theorem witness_resync :
    (received 9 [1, 0, 1, 0xFE, 0xFF]).map Prod.snd = (Pseudo.rxFrame 1 0).expand ∧
      (received 9 [7, 1, 0, 1, 0xFE, 0xFF, 0, 1, 1, 0xFE, 0xFF]).map Prod.snd =
        (Pseudo.rxRaw [7]).expand ++ (Pseudo.rxFrame 1 0).expand ++ (Pseudo.rxFrame 0 1).expand := by decide

/-- `SingleBitErrorIsRejected`: the last bit of each of the three bytes. -/
theorem witness_single_bit :
    State.reset.rxCur = 0 ∧ (1 : Byte) ^^^ (1#8 <<< 7) = 0x81 ∧ (0 : Byte) ^^^ (1#8 <<< 7) = 0x80 ∧
      (received 9 [0x81, 0, 1, 0xFE, 0xFF]).map Prod.snd =
        [Instr.rxb 0x81, .rxb 0, .rxb 1, .rxb 0xFE, .rxb 0xFF] := by decide

/-- `PeerRoundTrip`, second part: V-ENC-2. -/
theorem witness_peer :
    peerDecode [0x01, 0x00, 0x03, 0x00, 0x00, 0x02, 0xFE, 0xFF] = some (true, false, 3, 0, 0) ∧
      ([0x01, 0x00] : List Byte)[0]? = some 1 ∧ ([0x01, 0x00] : List Byte)[1]? = some 0 := by decide

/-- `TxcFollowsItsRule`: at 500 and at 499, with counters at their largest; `ReservedCounterIsNeverEmitted`: at 254. -/
theorem witness_txc :
    sampling.phase = .input ∧ 500 ≤ ({ sampling with now := 500 }.now - sampling.tTx).toNat ∧
      ({ sampling with now := 499 }.now - sampling.tTx).toNat < 500 ∧
      { sampling with plusCnt := 253 }.plusCnt.toNat ≤ 253 ∧ 253 < { sampling with plusCnt := 254 }.plusCnt.toNat ∧
      stopOf (exec .txc { sampling with now := 500, plusCnt := 254 }) = some (.inl .reservedCounter) := by decide

/-- `TransmissionIgnoresTheLink`: an answer of each kind. -/
theorem witness_txc_answers :
    (nextOf (exec .txc { sampling with now := 500 })).isSome = true ∧
      (stopOf (exec .txc { sampling with now := 500, plusCnt := 255 })).isSome = true ∧
      (stopOf (exec .txc State.reset)).isSome = true := by decide

/-- `FrameReportsEveryPressOfItsIteration`. -/
theorem witness_presses :
    sampling.Legal ∧ sampling.phase = .input ∧ (∀ op ∈ [((1 : Time), Instr.btnCam), (2, .btnPlus)], isButton op.2) ∧
      500 ≤ ((600 : Time) - sampling.tTx).toNat := by decide

/-- `FramesAreAtLeastThePeriodApart`: two frames in a run, and a frame at exactly the period. -/
theorem witness_spacing :
    State.reset.tTx = BitVec.ofNat 32 0 ∧
      (∀ op ∈ [(500, Instr.wdt), (500, .txc), (1000, .wdt), (1000, .txc)], op.2 ≠ .rst) ∧
      List.Pairwise (· ≤ ·) (0 :: [(500, Instr.wdt), (500, .txc), (1000, .wdt), (1000, .txc)].map Prod.fst) ∧
      emitTimes [(500, .wdt), (500, .txc), (1000, .wdt), (1000, .txc)] State.reset = [500, 1000] ∧
      sampling.Legal ∧ sampling.tTx = BitVec.ofNat 32 0 := by decide

/-- The frame of V-ENC-3. -/
theorem witness_frame : IsOutboundFrame [0x01, 0x01, 0xFD, 0x01, 0x02, 0xFE, 0xFE, 0xFF] :=
  ⟨0x01, 0x01, 0xFD, 0x01, 0x02, by decide⟩

/-- `OutboundDelimiterOnlyAtFrameEnds` and `EveryStepKeepsStatesLegalAndFramed`: a state with a frame emitted. -/
theorem witness_inv : State.Inv { State.reset with txOut := [0x01, 0x01, 0xFD, 0x01, 0x02, 0xFE, 0xFE, 0xFF] } :=
  ⟨by decide, [[0x01, 0x01, 0xFD, 0x01, 0x02, 0xFE, 0xFE, 0xFF]],
    fun f hf => by rw [List.mem_singleton.1 hf]; exact witness_frame, rfl⟩

/-- `EveryStepKeepsStatesLegalAndFramed` and `LegalStatesNeverFault`: a step that answers a next state. -/
theorem witness_step :
    State.reset.Legal ∧ (nextOf (step { State.reset with events := [⟨0, 0x2000⟩] })).isSome = true := by decide

/-- `WdtFollowsItsRule` and `OnlyAnAcceptedFrameBringsTheLinkUp`: the link goes Up, goes Down at the boundary. -/
theorem witness_link :
    armed.linkUp = false ∧ (nextOf (exec (.rxb 0xFF) armed)).map (·.linkUp) = some true ∧
      acceptsFrame (.rxb 0xFF) armed = true ∧ (upSince1000 3000).linkUp = true ∧ (upSince1000 3000).phase = .rx ∧
      (nextOf (exec .wdt (upSince1000 3000))).map (·.linkUp) = some false := by decide

/-- `LinkIsUpExactlyAfterARecentFrame`: E1's frame at 100, then a `WDT` at 2099 (Up) and at 2100 (Down). -/
theorem witness_recent_frame :
    nextOf (exec .rst armed) = some State.reset ∧
      (∀ op ∈ receivedAt 100 [1, 0, 1, 0xFE, 0xFF], op.2 ≠ .rst) ∧
      List.Pairwise (· ≤ ·) ((receivedAt 100 [1, 0, 1, 0xFE, 0xFF]).map Prod.fst ++ [2099]) ∧
      acceptTimes (receivedAt 100 [1, 0, 1, 0xFE, 0xFF]) State.reset = [100] ∧
      (nextOf (runOps (clocked (receivedAt 100 [1, 0, 1, 0xFE, 0xFF] ++ [(2099, .wdt)])) State.reset)).map
        (·.linkUp) = some true ∧
      (nextOf (runOps (clocked (receivedAt 100 [1, 0, 1, 0xFE, 0xFF] ++ [(2100, .wdt)])) State.reset)).map
        (·.linkUp) = some false := by decide

/-- `AcceptedFrameKeepsTheLinkUpThroughItsWatchdog`, at the last millisecond. -/
theorem witness_kept_up :
    (upSince1000 1000).Legal ∧ (upSince1000 1000).linkUp = true ∧ (upSince1000 1000).phase = .rx ∧
      (upSince1000 1000).tRx = BitVec.ofNat 32 1000 ∧ (∀ x ∈ [(1000, (7 : Byte)), (2999, 8)], 1000 ≤ x.1 ∧ x.1 ≤ 2999) ∧
      2999 - 1000 < 2000 ∧ List.Pairwise (· ≤ ·) ([(1000, (7 : Byte)), (2999, 8)].map Prod.fst) := by decide

/-- `RenderShowsDownUntilTheFirstFrame`: a run that renders. -/
theorem witness_render :
    acceptTimes [(0, .rxb 7), (3000, .wdt)] State.reset = [] ∧
      observations (clocked [(0, .rxb 7), (3000, .wdt)]) State.reset = [.render false false false] := by decide

/-- `ElapsedTimeIsRightAcrossAWrap`: V-WDT-5's times. -/
theorem witness_elapsed : 0xFFFFFF00 ≤ 0x100000500 ∧ 0x100000500 - 0xFFFFFF00 < 2 ^ 32 := by decide

/-- `ReceivePathIgnoresTheRequestState`, `RegistersAreWrittenOnlyByTheirOperations`, `OutputGrowsByWholeFrames`. -/
theorem witness_next_states :
    (nextOf (exec (.rxb 0xFF) armed)).isSome = true ∧ (nextOf (exec .wdt armed)).isSome = true ∧
      (nextOf (exec .txc { sampling with now := 500 })).isSome = true ∧ Instr.txc ≠ .rst := by decide

/-- `ToggleButtonsInvertTheirRequest` and `CounterButtonsIncrementTheirCounter`: a press in phase, at the counters'
boundary, and one out of phase. -/
theorem witness_buttons :
    { sampling with minusCnt := 253 }.phase = .input ∧ { sampling with minusCnt := 253 }.minusCnt.toNat + 1 ≥ 254 ∧
      sampling.minusCnt.toNat + 1 < 254 ∧ State.reset.phase = .rx := by decide

/-- `FramesAfterResetCarryZeros`: a run that emits a frame. -/
theorem witness_frames_after_reset :
    (∀ op ∈ [(500, Instr.wdt), (500, .txc)], op.2 ≠ .rst ∧ isButton op.2 = false) ∧
      List.Pairwise (· ≤ ·) ([(500, Instr.wdt), (500, .txc)].map Prod.fst) ∧
      (nextOf (runOps (clocked [(500, .wdt), (500, .txc)]) State.reset)).map (·.txOut) =
        some [0, 0, 0, 0, 0, 0, 0xFE, 0xFF] := by decide

end Sys2Proof.Tests
end

section
/-! Elapsed time over the 32-bit time base (00_scope.md R11, 70_reset_and_hazards.md R199). -/

namespace Sys2Proof.Machine

/-- The modular difference of two real times in order is the time base's value of their difference, however often the
time base wrapped before or between them. -/
theorem ofNat_sub_ofNat_of_le {before now : Nat} (h : before ≤ now) :
    (BitVec.ofNat 32 now - BitVec.ofNat 32 before : Time) = BitVec.ofNat 32 (now - before) := by
  obtain ⟨elapsed, rfl⟩ := Nat.exists_eq_add_of_le h
  rw [BitVec.ofNat_add, BitVec.add_comm, BitVec.add_sub_cancel, Nat.add_sub_cancel_left]

/-- Settles O34: the wraps cancel in the difference, which below 2^32 is its own 32-bit value. -/
theorem elapsedTimeIsRightAcrossAWrap : Obligations.ElapsedTimeIsRightAcrossAWrap := by
  intro now before hle hlt
  rw [sub32, ofNat_sub_ofNat_of_le hle, BitVec.toNat_ofNat, Nat.mod_eq_of_lt hlt]

end Sys2Proof.Machine
end

section
/-! The output stream (10_state.md R36, 20_memory.md R57): a frame appended to a framed stream
keeps it framed, and the frame of the request state is an outbound frame. -/

namespace Sys2Proof.Machine

theorem framedStream_nil : FramedStream [] := ⟨[], by simp, rfl⟩

/-- A framed stream stays framed when one outbound frame is appended. -/
theorem FramedStream.append_frame {out f : List Byte} (hout : FramedStream out) (hf : IsOutboundFrame f) :
    FramedStream (out ++ f) := by
  obtain ⟨frames, hframes, rfl⟩ := hout
  refine ⟨frames ++ [f], fun g hg => ?_, by simp⟩
  rcases List.mem_append.1 hg with hg | hg
  · exact hframes g hg
  · exact List.mem_singleton.1 hg ▸ hf

theorem bool2byte_eq_zero_or_one (x : Bool) : bool2byte x = 0 ∨ bool2byte x = 1 := by cases x <;> decide

/-- The frame of the request state is an outbound frame when its counters are legal. -/
theorem isOutboundFrame_requestFrame {s : State} (h : countersLegal s = true) : IsOutboundFrame (requestFrame s) := by
  obtain ⟨hplus, hminus, hshot⟩ := (countersLegal_iff s).1 h
  refine ⟨bool2byte s.camReq, bool2byte s.micReq, s.plusCnt, s.minusCnt, s.shotCnt, bool2byte_eq_zero_or_one _,
    bool2byte_eq_zero_or_one _, hplus, hminus, hshot, ?_⟩
  rw [requestFrame, encodeFrame, framePayload, xorfold_five]
  rfl

end Sys2Proof.Machine
end

section
/-! `RXB`, read from its answer: what a store and a boundary leave, what neither writes, and that a legal state always
has an answer (40_frame_codec.md R102). -/

namespace Sys2Proof.Machine

variable {b : Byte} {s t : State}

/-- A byte that is no boundary is stored. -/
theorem execRxb_store (h : execRxb b s = .next t) (hb : ¬(s.rxPrev = 0xFE ∧ b = 0xFF)) :
    s.rxCur.toNat ≤ 4 ∧ t = { s with
      rxBuf := Memory.write s.rxBuf s.rxCur.toNat b, rxPrev := b, rxCur := nextCursor s.rxCur } := by
  obtain ⟨-, ⟨hprev, hbyte, -⟩ | ⟨hprev, hbyte, -⟩ | ⟨-, hstore⟩⟩ := (execRxb_eq_next_iff b s t).1 h
  · exact absurd ⟨hprev, hbyte⟩ hb
  · exact absurd ⟨hprev, hbyte⟩ hb
  · exact hstore

/-- A boundary, whether it accepts or discards, takes the cursor back to 0 and stores nothing. -/
theorem execRxb_boundary (h : execRxb b s = .next t) (hb : s.rxPrev = 0xFE ∧ b = 0xFF) :
    t.rxBuf = s.rxBuf ∧ t.rxPrev = s.rxPrev ∧ t.rxCur = 0 := by
  obtain ⟨-, ⟨-, -, -, rfl⟩ | ⟨-, -, -, rfl⟩ | ⟨hn, -⟩⟩ := (execRxb_eq_next_iff b s t).1 h
  · exact ⟨rfl, rfl, rfl⟩
  · exact ⟨rfl, rfl, rfl⟩
  · exact absurd hb hn

/-- `RXB` writes no register of the transmit path, nor the phase, the time input, the output or the pending events. -/
theorem execRxb_frame (h : execRxb b s = .next t) :
    t.tTx = s.tTx ∧ t.camReq = s.camReq ∧ t.micReq = s.micReq ∧ t.plusCnt = s.plusCnt ∧ t.minusCnt = s.minusCnt ∧
      t.shotCnt = s.shotCnt ∧ t.phase = s.phase ∧ t.now = s.now ∧ t.txOut = s.txOut ∧ t.events = s.events := by
  obtain ⟨-, ⟨-, -, -, rfl⟩ | ⟨-, -, -, rfl⟩ | ⟨-, -, rfl⟩⟩ := (execRxb_eq_next_iff b s t).1 h <;> simp

/-- In `P_RX` with a legal cursor, `RXB` answers a next state. -/
theorem exists_execRxb_eq_next (b : Byte) (hcur : s.rxCur.toNat ≤ 4) (hp : s.phase = .rx) :
    ∃ t, execRxb b s = .next t := by
  by_cases hb : s.rxPrev = 0xFE ∧ b = 0xFF
  · by_cases hk : Memory.read s.rxBuf 0 ^^^ Memory.read s.rxBuf 1 = Memory.read s.rxBuf 2
    · exact ⟨_, (execRxb_eq_next_iff b s _).2 ⟨hp, .inl ⟨hb.1, hb.2, hk, rfl⟩⟩⟩
    · exact ⟨_, (execRxb_eq_next_iff b s _).2 ⟨hp, .inr (.inl ⟨hb.1, hb.2, hk, rfl⟩)⟩⟩
  · exact ⟨_, (execRxb_eq_next_iff b s _).2 ⟨hp, .inr (.inr ⟨hb, hcur, rfl⟩)⟩⟩

/-- `RXB` keeps the bounds: a boundary leaves the cursor at 0, and a store writes inside the buffer. -/
theorem execRxb_keeps_legal (hs : s.Legal) (h : execRxb b s = .next t) : t.Legal := by
  obtain ⟨hbuf, hcur, hcounters⟩ := hs
  by_cases hb : s.rxPrev = 0xFE ∧ b = 0xFF
  · obtain ⟨hbuf', -, hcur'⟩ := execRxb_boundary h hb
    obtain ⟨-, -, -, hplus, hminus, hshot, -⟩ := execRxb_frame h
    rw [State.Legal, hbuf', hcur', hplus, hminus, hshot]
    exact ⟨hbuf, by decide, hcounters⟩
  · obtain ⟨-, rfl⟩ := execRxb_store h hb
    have hin : s.rxCur.toNat < Config.rxbufLen := Nat.lt_succ_of_le hcur
    exact ⟨Memory.wf_write hbuf hin b, nextCursor_le _, hcounters⟩

end Sys2Proof.Machine
end

section
/-! The ownership of the registers (10_state.md R20 to R30, R36). -/

namespace Sys2Proof.Machine

/-- Settles O44: `RXB` by its frame, every other operation by the next state its rule writes out. -/
theorem registersAreWrittenOnlyByTheirOperations : Obligations.RegistersAreWrittenOnlyByTheirOperations := by
  intro i s t h hrst
  cases i with
  | rxb b => simp [execRxb_frame h]
  | wdt =>
    obtain ⟨-, rfl⟩ := (execWdt_eq_next_iff s t).1 h
    simp
  | txc => obtain ⟨-, ⟨-, -, rfl⟩ | ⟨-, rfl⟩⟩ := (execTxc_eq_next_iff s t).1 h <;> simp
  | btnCam =>
    obtain ⟨-, rfl⟩ := (execBtnCam_eq_next_iff s t).1 h
    simp
  | btnMic =>
    obtain ⟨-, rfl⟩ := (execBtnMic_eq_next_iff s t).1 h
    simp
  | btnPlus =>
    obtain ⟨-, rfl⟩ := (execBtnPlus_eq_next_iff s t).1 h
    simp
  | btnMinus =>
    obtain ⟨-, rfl⟩ := (execBtnMinus_eq_next_iff s t).1 h
    simp
  | btnShot =>
    obtain ⟨-, rfl⟩ := (execBtnShot_eq_next_iff s t).1 h
    simp
  | rst => exact absurd rfl hrst

end Sys2Proof.Machine
end

section
/-! The invariant of 10_state.md R39: the reset state meets it, every operation keeps it, so every step keeps it. -/

namespace Sys2Proof.Machine

variable {i : Instr} {s t : State}

theorem reset_legal : State.reset.Legal := by decide

/-- Every operation keeps the bounds, as 43_request_state.md R156 has it for the counters. -/
theorem exec_keeps_legal (hs : s.Legal) (h : exec i s = .next t) : t.Legal := by
  have ⟨hbuf, hcur, hplus, hminus, hshot⟩ := hs
  cases i with
  | rxb b => exact execRxb_keeps_legal hs h
  | wdt =>
    obtain ⟨-, rfl⟩ := (execWdt_eq_next_iff s t).1 h
    exact hs
  | txc => obtain ⟨-, ⟨-, -, rfl⟩ | ⟨-, rfl⟩⟩ := (execTxc_eq_next_iff s t).1 h <;> exact hs
  | btnCam =>
    obtain ⟨-, rfl⟩ := (execBtnCam_eq_next_iff s t).1 h
    exact hs
  | btnMic =>
    obtain ⟨-, rfl⟩ := (execBtnMic_eq_next_iff s t).1 h
    exact hs
  | btnPlus =>
    obtain ⟨-, rfl⟩ := (execBtnPlus_eq_next_iff s t).1 h
    exact ⟨hbuf, hcur, inc254_le _, hminus, hshot⟩
  | btnMinus =>
    obtain ⟨-, rfl⟩ := (execBtnMinus_eq_next_iff s t).1 h
    exact ⟨hbuf, hcur, hplus, inc254_le _, hshot⟩
  | btnShot =>
    obtain ⟨-, rfl⟩ := (execBtnShot_eq_next_iff s t).1 h
    exact ⟨hbuf, hcur, hplus, hminus, inc254_le _⟩
  | rst =>
    obtain rfl := (execRst_eq_next_iff s t).1 h
    exact reset_legal

/-- Only `TXC` appends to the output stream, and what it appends is one outbound frame. -/
theorem exec_txOut_eq_or_append_frame (h : exec i s = .next t) :
    t.txOut = s.txOut ∨ (i = .txc ∧ ∃ f, IsOutboundFrame f ∧ t.txOut = s.txOut ++ f) := by
  by_cases htxc : i = .txc
  · subst htxc
    obtain ⟨-, ⟨-, hlegal, rfl⟩ | ⟨-, rfl⟩⟩ := (execTxc_eq_next_iff s t).1 h
    · exact .inr ⟨rfl, requestFrame s, isOutboundFrame_requestFrame hlegal, rfl⟩
    · exact .inl rfl
  by_cases hrst : i = .rst
  · subst hrst
    obtain rfl := (execRst_eq_next_iff s t).1 h
    exact .inl rfl
  · obtain ⟨-, -, hout, -⟩ := registersAreWrittenOnlyByTheirOperations i s t h hrst
    exact .inl (hout htxc).2

/-- Every operation keeps the invariant. -/
theorem exec_keeps_inv (hs : s.Inv) (h : exec i s = .next t) : t.Inv := by
  obtain ⟨hlegal, hframed⟩ := hs
  refine ⟨exec_keeps_legal hlegal h, ?_⟩
  rcases exec_txOut_eq_or_append_frame h with hout | ⟨-, f, hf, hout⟩
  · exact hout ▸ hframed
  · exact hout ▸ hframed.append_frame hf

/-- The invariant speaks neither of the time input nor of the pending events. -/
theorem inv_atTime_withRest_iff (s : State) (rest : List Event) (now : Time) :
    (State.atTime { s with events := rest } now).Inv ↔ s.Inv := Iff.rfl

end Sys2Proof.Machine
end

section
/-! The scan buffer, the invariant and the observation points (10_state.md R21 to R23, R34, R39, R40). -/

namespace Sys2Proof.Machine

/-- Settles O42: a step is nothing, or one operation at the event's time, and every operation keeps the invariant. -/
theorem everyStepKeepsStatesLegalAndFramed : Obligations.EveryStepKeepsStatesLegalAndFramed := by
  intro s t hs h
  rcases (step_eq_next_iff s t).1 h with ⟨-, rfl⟩ | ⟨e, rest, i, -, -, hexec⟩
  · exact hs
  · exact exec_keeps_inv ((inv_atTime_withRest_iff s rest e.now).2 hs) hexec

/-- Settles O41. -/
theorem resetStateIsLegalAndFramed : Obligations.ResetStateIsLegalAndFramed := ⟨reset_legal, framedStream_nil⟩

/-- Settles O11: a store writes at the cursor, and a boundary writes no cell. -/
theorem rxbScanBufferFrame : Obligations.RxbScanBufferFrame := by
  intro s b hs hp
  have ⟨hbuf, hcur, _⟩ := hs
  obtain ⟨t, h⟩ := exists_execRxb_eq_next b hcur hp
  refine ⟨t, h, (execRxb_keeps_legal hs h).1, fun hb => ?_, fun hb => ?_, execRxb_frame h⟩
  · obtain ⟨-, rfl⟩ := execRxb_store h hb
    exact ⟨Memory.read_write_same hbuf.1 _ b, fun a ha => Memory.read_write_other _ b ha, rfl, rfl, rfl, rfl⟩
  · obtain ⟨hbuf', hprev, -⟩ := execRxb_boundary h hb
    exact ⟨fun a => by rw [hbuf'], hprev⟩

/-- Settles O35: outputs and observations are the registers by definition; no operation but `WDT` and `TXC` ends in an
observation. -/
theorem observationPointsShowTheOutputs : Obligations.ObservationPointsShowTheOutputs := by
  refine fun s => ⟨rfl, rfl, rfl, rfl, rfl, fun i hwdt htxc => ?_⟩
  cases i with
  | wdt => exact absurd rfl hwdt
  | txc => exact absurd rfl htxc
  | _ => rfl

end Sys2Proof.Machine
end

section
/-! Presented events and runs (20_memory.md R60): an operation answers the same whatever events are still pending, so
that many steps are the run of the operations they take. -/

namespace Sys2Proof.Machine

/-- The decoder reads back the operation a word was made from (30_encoding.md R79 to R83). -/
@[simp] theorem decode_encode (i : Instr) : decode (encode i) = .op i := by
  cases i <;> simp [encode, decode, decodeBare, decodeButton]

/-- A step with an operation's word as its next event runs the operation at the event's time. -/
theorem step_of_events_eq_cons {s : State} {now : Time} {i : Instr} {rest : List Event}
    (h : s.events = ⟨now, encode i⟩ :: rest) : step s = exec i (State.atTime { s with events := rest } now) := by
  simp only [step, takeEvent_of_cons h, present, decode_encode]

/-- Settles O6: with no event to take, the step is the idle one. -/
theorem stepWithNothingPresentedChangesNothing : Obligations.StepWithNothingPresentedChangesNothing :=
  fun s h => (step_eq_next_iff s s).2 (.inl ⟨h, rfl⟩)

/-- A run of the core is one step, then the rest of the run. -/
theorem run_succ (k : Nat) (s : core.State) :
    Host.Core.run core (k + 1) s = andThen (step s) (Host.Core.run core k) := by
  have hstep : core.step s = step s := rfl
  rw [Host.Core.run, hstep]
  cases step s <;> rfl

/-- What follows an operation may be moved inside its phase check. -/
theorem andThen_requirePhase (p : Phase) (s : State) (o : Answer) (k : State → Answer) :
    andThen (requirePhase p s o) k = requirePhase p s (andThen o k) := by
  by_cases hp : s.phase = p
  · rw [requirePhase_of_eq hp, requirePhase_of_eq hp]
  · rw [requirePhase_of_ne hp, requirePhase_of_ne hp, andThen_refused]

theorem checkFrame_withPending (s : State) (es : List Event) :
    checkFrame { s with events := es } = andThen (checkFrame s) fun t => .next { t with events := es } := by
  rw [checkFrame_eq, checkFrame_eq, andThen_next]
  by_cases hk : Memory.read s.rxBuf 0 ^^^ Memory.read s.rxBuf 1 = Memory.read s.rxBuf 2
  · simp only [if_pos hk, accept]
  · simp only [if_neg hk]

theorem storeByte_withPending (b : Byte) (s : State) (es : List Event) :
    storeByte b { s with events := es } = andThen (storeByte b s) fun t => .next { t with events := es } := by
  by_cases hcur : s.rxCur.toNat ≤ 4
  · rw [storeByte_of_le hcur, storeByte_of_le (s := { s with events := es }) hcur, andThen_next]
  · have hcur := Nat.lt_of_not_le hcur
    rw [storeByte_of_lt hcur, storeByte_of_lt (s := { s with events := es }) hcur, andThen_fault]

/-- `RXB` neither reads nor writes the pending events. -/
theorem execRxb_withPending (b : Byte) (s : State) (es : List Event) :
    execRxb b { s with events := es } = andThen (execRxb b s) fun t => .next { t with events := es } := by
  have hsame : isBoundary { s with events := es } b = isBoundary s b := rfl
  rw [execRxb, execRxb, andThen_requirePhase, hsame]
  cases isBoundary s b
  · exact congrArg (requirePhase .rx s) (storeByte_withPending b s es)
  · exact congrArg (requirePhase .rx s) (checkFrame_withPending s es)

/-- `TXC` neither reads nor writes the pending events. -/
theorem execTxc_withPending (s : State) (es : List Event) :
    execTxc { s with events := es } = andThen (execTxc s) fun t => .next { t with events := es } := by
  have hdue : transmitDue { s with events := es } = transmitDue s := rfl
  have hlegal : countersLegal { s with events := es } = countersLegal s := rfl
  rw [execTxc, execTxc, andThen_requirePhase, hdue, fire, fire, hlegal]
  cases transmitDue s
  · rfl
  · cases countersLegal s <;> rfl

/-- No operation reads or writes the pending events: its answer with others pending is its answer with those put in. -/
theorem exec_withPending (i : Instr) (s : State) (es : List Event) :
    exec i { s with events := es } = andThen (exec i s) fun t => .next { t with events := es } := by
  cases i with
  | rxb b => exact execRxb_withPending b s es
  | txc => exact execTxc_withPending s es
  | rst => rfl
  | wdt | btnCam | btnMic | btnPlus | btnMinus | btnShot =>
    symm
    exact andThen_requirePhase _ s _ _

/-- An operation leaves the pending events as they are. -/
theorem exec_events {i : Instr} {s t : State} (h : exec i s = .next t) : t.events = s.events := by
  have hself := exec_withPending i s s.events
  rw [h, andThen_next, Host.Outcome.next.injEq] at hself
  rw [hself]

/-- With other events left to come, the operation a step takes answers what the step answers, with those put in. -/
theorem exec_atTime_eq_step {s : State} {now : Time} {i : Instr} {es : List Event}
    (h : s.events = ⟨now, encode i⟩ :: es) (rest : List Event) :
    exec i (State.atTime { s with events := rest } now) = andThen (step s) fun t => .next { t with events := rest } := by
  rw [step_of_events_eq_cons h]
  exact exec_withPending i (State.atTime { s with events := es } now) rest

/-- A step takes only the operation it runs off the pending events. -/
theorem events_of_step_eq_next {s t : State} {now : Time} {i : Instr} {es : List Event}
    (h : s.events = ⟨now, encode i⟩ :: es) (hstep : step s = .next t) : t.events = es := by
  rw [step_of_events_eq_cons h] at hstep
  exact exec_events hstep

/-- Settles O7, by induction on the operations: the first step runs the first of them and leaves the rest presented. -/
theorem stepsRunThePresentedOperations : Obligations.StepsRunThePresentedOperations := by
  intro ops rest
  induction ops with
  | nil =>
    intro s hs
    obtain rfl : s.events = rest := hs
    rfl
  | cons op ops ih =>
    intro s hs
    refine (run_succ ops.length s).trans ?_
    rw [runOps_cons, exec_atTime_eq_step hs]
    cases hstep : step s with
    | next t => exact ih t (events_of_step_eq_next hs hstep)
    | fault r => rfl
    | refused r => rfl

end Sys2Proof.Machine
end

section
/-! The output stream and the bounds of the scan buffer (20_memory.md R51, R57). -/

namespace Sys2Proof.Machine

/-- Settles O45: what one operation appends, as the invariant of 10_state.md R39 already uses it. -/
theorem outputGrowsByWholeFrames : Obligations.OutputGrowsByWholeFrames :=
  fun _ _ _ h => exec_txOut_eq_or_append_frame h

/-- Settles O12: such a store is the one case in which `RXB` faults. -/
theorem storeOutsideTheScanBufferFaults : Obligations.StoreOutsideTheScanBufferFaults :=
  fun s b hp hb hcur => (execRxb_eq_fault_iff b s _).2 ⟨hp, hb, hcur, rfl⟩

end Sys2Proof.Machine
end

section
/-! The decoder as the inverse of the encoder, the operation table's rows, and the words that are no operation
(30_encoding.md R79 to R83). -/

namespace Sys2Proof.Machine

/-- A word with `z` = 0000 is the event word of its `op` and `data`. -/
theorem eq_eventWord_of_zField {w : EventWord} (hz : zField w = 0) : w = eventWord (opField w) (dataField w) :=
  eventWord_ext (by simp) (by simp [hz]) (by simp)

/-- A class with no operand decodes only where `data` is the 0x00 it is encoded with. -/
theorem encode_of_decodeBare {op : BitVec 4} {i j : Instr} {data : Byte} (hi : encode i = eventWord op 0x00)
    (h : decodeBare i data = .op j) : encode j = eventWord op data := by
  unfold decodeBare at h
  split_ifs at h with hd
  obtain rfl := Decoded.op.inj h
  rw [hi, hd]

/-- A button that decodes is encoded by its own `data`. -/
theorem encode_of_decodeButton {data : Byte} {i : Instr} (h : decodeButton data = .op i) :
    encode i = eventWord 0x4 data := by
  unfold decodeButton at h
  split_ifs at h with hcam hmic hplus hminus hshot
  all_goals
    subst data
    cases h
    rfl

/-- Everything the decoder takes: `z` is 0000, and `op` and `data` are those the operation encodes to. -/
theorem fields_of_decode_eq_op {w : EventWord} {i : Instr} (h : decode w = .op i) :
    zField w = 0 ∧ encode i = eventWord (opField w) (dataField w) := by
  unfold decode at h
  split_ifs at h with hop hz hop hz hop hz hop hz hop hz
  · obtain rfl := Decoded.op.inj h
    exact ⟨hz, by rw [hop]; rfl⟩
  · exact ⟨hz, by rw [hop, encode_of_decodeBare rfl h]⟩
  · exact ⟨hz, by rw [hop, encode_of_decodeBare rfl h]⟩
  · exact ⟨hz, by rw [hop, encode_of_decodeButton h]⟩
  · exact ⟨hz, by rw [hop, encode_of_decodeBare rfl h]⟩

/-- The decoder and the encoder are inverse to each other. -/
theorem decode_eq_op_iff (w : EventWord) (i : Instr) : decode w = .op i ↔ w = encode i := by
  constructor
  · intro h
    obtain ⟨hz, henc⟩ := fields_of_decode_eq_op h
    rw [henc]
    exact eq_eventWord_of_zField hz
  · rintro rfl
    exact decode_encode i

/-- Settles O2: every operation is well formed, so the decoder's inverse law is the statement. -/
theorem decodeIsInverseOfEncode : Obligations.DecodeIsInverseOfEncode :=
  fun w i _ => decode_eq_op_iff w i

/-- Settles O1: each written-out word is an operation's encoding. -/
theorem writtenOutWordsDecode : Obligations.WrittenOutWordsDecode :=
  ⟨decode_encode (.rxb 0xFE), decode_encode .wdt, decode_encode .txc, decode_encode .btnCam, decode_encode .btnMic,
    decode_encode .btnPlus, decode_encode .btnMinus, decode_encode .btnShot, decode_encode .rst⟩

/-! ### The rows of the operation table -/

theorem opField_and (w v : EventWord) : opField (w &&& v) = opField w &&& opField v := BitVec.extractLsb'_and

theorem zField_and (w v : EventWord) : zField (w &&& v) = zField w &&& zField v := BitVec.extractLsb'_and

theorem encode_matches_rowOf (i : Instr) : encode i &&& (rowOf i).2 = (rowOf i).1 := by
  refine eq_of_beq (α := EventWord) ?_
  cases i with
  | rxb b => exact Laws.EncodedRow.rxb b
  | wdt | txc | btnCam | btnMic | btnPlus | btnMinus | btnShot | rst => decide

/-- Every operation's row is in the table: the byte of `RXB` is no part of its row. -/
theorem rowOf_mem_opcodeRows (i : Instr) : rowOf i ∈ opcodeRows := by
  cases i <;> simp [opcodeRows, rowOf]

/-- The table holds no row but those of the operations. -/
theorem exists_rowOf_of_mem {r : EventWord × EventWord} (hr : r ∈ opcodeRows) : ∃ i, rowOf i = r := by
  have hmap : opcodeRows =
    [Instr.rxb 0, .wdt, .txc, .btnCam, .btnMic, .btnPlus, .btnMinus, .btnShot, .rst].map rowOf := rfl
  obtain ⟨i, -, hi⟩ := List.mem_map.1 (hmap ▸ hr)
  exact ⟨i, hi⟩

/-- The row of `RXB` fixes `op` and `z` and leaves `data` free. -/
theorem eq_encode_of_matches_rxb {w : EventWord} (h : w &&& 0xFF00 = 0x1000) : w = encode (.rxb (dataField w)) := by
  have hop : opField w &&& 0xF = 0x1 := (opField_and w 0xFF00).symm.trans (congrArg opField h)
  have hz : zField w &&& 0xF = 0x0 := (zField_and w 0xFF00).symm.trans (congrArg zField h)
  have hones (x : BitVec 4) : x &&& 0xF = x := BitVec.and_allOnes
  rw [hones] at hop hz
  exact (eq_eventWord_of_zField hz).trans (by rw [hop]; rfl)

/-- A row whose mask is all ones is matched by its own word only. -/
theorem and_fullMask (w : EventWord) : w &&& 0xFFFF = w := BitVec.and_allOnes

/-- A word that matches a row is the encoding of an operation of that row. -/
theorem exists_eq_encode_of_matches {w : EventWord} {i : Instr} (h : w &&& (rowOf i).2 = (rowOf i).1) :
    ∃ j, w = encode j ∧ rowOf j = rowOf i := by
  cases i with
  | rxb b => exact ⟨_, eq_encode_of_matches_rxb h, rfl⟩
  | wdt | txc | btnCam | btnMic | btnPlus | btnMinus | btnShot | rst =>
    refine ⟨_, ?_, rfl⟩
    exact (and_fullMask w).symm.trans h

/-- A word that matches a row decodes to an operation of that row. -/
theorem exists_decode_of_matches {w : EventWord} {r : EventWord × EventWord} (hr : r ∈ opcodeRows)
    (h : w &&& r.2 = r.1) : ∃ i, decode w = .op i ∧ rowOf i = r := by
  obtain ⟨i, rfl⟩ := exists_rowOf_of_mem hr
  obtain ⟨j, rfl, hj⟩ := exists_eq_encode_of_matches h
  exact ⟨j, decode_encode j, hj⟩

/-- Settles O3: two rows that one word matches are both the row of the operation the word decodes to. -/
theorem tableRowsDoNotOverlap : Obligations.TableRowsDoNotOverlap := by
  refine ⟨rfl, fun w r hr q hq hwr hwq => ?_, fun w i h => ?_, fun w r hr => exists_decode_of_matches hr⟩
  · obtain ⟨i, hi, rfl⟩ := exists_decode_of_matches hr hwr
    obtain ⟨j, hj, rfl⟩ := exists_decode_of_matches hq hwq
    obtain rfl : i = j := Decoded.op.inj (hi.symm.trans hj)
    rfl
  · obtain rfl := (decode_eq_op_iff w i).1 h
    exact ⟨encode_matches_rowOf i, rowOf_mem_opcodeRows i⟩

/-! ### The step on the word it is presented -/

/-- Settles O5: the word is the encoding of the operation it decodes to. -/
theorem stepRunsThePresentedOperation : Obligations.StepRunsThePresentedOperation := by
  intro s now w rest i hs hd
  obtain rfl := (decode_eq_op_iff w i).1 hd
  exact step_of_events_eq_cons hs

/-- A step presented with a word the decoder rejects is refused with the word and the reason. -/
theorem step_of_decode_eq_rejected {s : State} {e : Event} {rest : List Event} {why : DecodeReject}
    (hs : s.events = e :: rest) (hd : decode e.word = .rejected why) :
    step s = .refused (.notAnOperation why e.word) := by
  simp only [step, takeEvent_of_cons hs, present, hd]

/-- A word that no line of the decoder of R83 takes is no operation's encoding. -/
theorem ne_encode_of_untaken {w : EventWord} (hrxb : ¬(w.extractLsb' 12 4 = 0x1 ∧ w.extractLsb' 8 4 = 0))
    (hwdt : w ≠ 0x2000) (htxc : w ≠ 0x3000)
    (hbtn : ¬(w.extractLsb' 8 8 = 0x40 ∧ (w.extractLsb' 0 8).toNat ≤ 4)) (hrst : w ≠ 0xF000) (i : Instr) :
    w ≠ encode i := by
  rintro rfl
  cases i with
  | rxb b => exact hrxb ⟨opField_eventWord 0x1 b, zField_eventWord 0x1 b⟩
  | wdt => exact hwdt rfl
  | txc => exact htxc rfl
  | rst => exact hrst rfl
  | btnCam | btnMic | btnPlus | btnMinus | btnShot => exact hbtn (by decide)

/-- Settles O4: each line takes the encoding of its operation, and a word that is no encoding is rejected. -/
theorem decodeIsTotalAndRefusesTheRest : Obligations.DecodeIsTotalAndRefusesTheRest := by
  intro w
  refine ⟨fun ⟨hop, hz⟩ => ?_, fun h => h ▸ decode_encode .wdt, fun h => h ▸ decode_encode .txc,
    fun h => h ▸ decode_encode .btnCam, fun h => h ▸ decode_encode .btnMic, fun h => h ▸ decode_encode .btnPlus,
    fun h => h ▸ decode_encode .btnMinus, fun h => h ▸ decode_encode .btnShot, fun h => h ▸ decode_encode .rst,
    fun hrxb hwdt htxc hbtn hrst => ?_⟩
  · refine (decode_eq_op_iff w _).2 ((eq_eventWord_of_zField hz).trans ?_)
    rw [opField, hop]
    rfl
  · cases hd : decode w with
    | op i => exact absurd ((decode_eq_op_iff w i).1 hd) (ne_encode_of_untaken hrxb hwdt htxc hbtn hrst i)
    | rejected why => exact ⟨why, rfl, fun s now rest hs => step_of_decode_eq_rejected hs hd⟩

end Sys2Proof.Machine
end

section
/-! The loop-order table (30_encoding.md R88): the phase each operation requires, its refusal outside, and the phase
after. -/

namespace Sys2Proof.Machine

variable {i : Instr} {s t : State} {p q : Phase}

/-- Outside its required phase an operation is refused. -/
theorem exec_eq_refused (hreq : requiredPhase i = some p) (hs : s.phase = q) (hne : q ≠ p) :
    exec i s = .refused (.outOfPhase p q) := by
  subst q
  cases i with
  | rst => cases hreq
  | rxb | wdt | txc | btnCam | btnMic | btnPlus | btnMinus | btnShot =>
    cases hreq
    exact requirePhase_of_ne hne _

/-- Where an operation answers a next state, the phase was the required one. -/
theorem phase_of_exec_eq_next (hreq : requiredPhase i = some p) (h : exec i s = .next t) : s.phase = p := by
  by_contra hne
  rw [exec_eq_refused hreq rfl hne] at h
  cases h

/-- Only `WDT`, `TXC` and `RST` move the phase; any other operation that answers leaves the one it requires. -/
theorem phases_of_exec_eq_next (hreq : requiredPhase i = some p) (hwdt : i ≠ .wdt) (htxc : i ≠ .txc)
    (h : exec i s = .next t) : s.phase = p ∧ t.phase = p := by
  have hrst : i ≠ .rst := by
    rintro rfl
    cases hreq
  obtain ⟨-, -, -, -, -, -, -, -, hkept, -⟩ := registersAreWrittenOnlyByTheirOperations i s t h hrst
  have hs := phase_of_exec_eq_next hreq h
  exact ⟨hs, (hkept hwdt htxc).trans hs⟩

/-- Settles O8: refusal outside the required phase, and for the operations that move the phase the next state their
rule writes out. -/
theorem loopOrderTable : Obligations.LoopOrderTable := by
  intro s
  have hinput : ∀ i ∈ [Instr.txc, .btnCam, .btnMic, .btnPlus, .btnMinus, .btnShot],
      requiredPhase i = some .input := by decide
  have hbutton : ∀ i ∈ [Instr.btnCam, .btnMic, .btnPlus, .btnMinus, .btnShot],
      requiredPhase i = some .input ∧ i ≠ .wdt ∧ i ≠ .txc := by decide
  refine ⟨fun hp => ⟨fun b => exec_eq_refused rfl hp nofun, exec_eq_refused rfl hp nofun⟩,
    fun hp i hi => exec_eq_refused (hinput i hi) hp nofun,
    fun b t h => phases_of_exec_eq_next (i := .rxb b) rfl nofun nofun h, fun t h => ?_, fun i hi t h => ?_,
    fun t h => ?_, _, rfl, rfl⟩
  · obtain ⟨hp, rfl⟩ := (execWdt_eq_next_iff s t).1 h
    exact ⟨hp, rfl⟩
  · obtain ⟨hreq, hwdt, htxc⟩ := hbutton i hi
    exact phases_of_exec_eq_next hreq hwdt htxc h
  · obtain ⟨hp, ⟨-, -, rfl⟩ | ⟨-, rfl⟩⟩ := (execTxc_eq_next_iff s t).1 h <;> exact ⟨hp, rfl⟩

end Sys2Proof.Machine
end

section
/-! The loop order as a relation between the phases before and after, tied to the operations: from a legal state a run
answers a next state exactly where the loop order takes its operations (30_encoding.md R88). -/

namespace Sys2Proof.Machine

variable {i : Instr} {s t : State} {p q : Phase}

/-- The loop-order table of 30_encoding.md R88: the phase before an operation, the operation, the phase after. -/
inductive LoopStep : Phase → Instr → Phase → Prop where
  | rxb (b : Byte) : LoopStep .rx (.rxb b) .rx
  | wdt : LoopStep .rx .wdt .input
  | button {i : Instr} (hi : isButton i = true) : LoopStep .input i .input
  | txc : LoopStep .input .txc .rx
  | rst (p : Phase) : LoopStep p .rst .rx

/-- An operation that answers a next state moves the phase as the loop order has it. -/
theorem loopStep_of_exec_eq_next (h : exec i s = .next t) : LoopStep s.phase i t.phase := by
  obtain ⟨-, -, hrxb, hwdt, hbutton, htxc, u, hu, hrst⟩ := loopOrderTable s
  cases i with
  | rxb b =>
    obtain ⟨hs, ht⟩ := hrxb b t h
    exact hs ▸ ht ▸ .rxb b
  | wdt =>
    obtain ⟨hs, ht⟩ := hwdt t h
    exact hs ▸ ht ▸ .wdt
  | txc =>
    obtain ⟨hs, ht⟩ := htxc t h
    exact hs ▸ ht ▸ .txc
  | rst =>
    obtain rfl : u = t := by simpa [hu] using h
    exact hrst ▸ .rst _
  | btnCam | btnMic | btnPlus | btnMinus | btnShot =>
    obtain ⟨hs, ht⟩ := hbutton _ (by decide) t h
    exact hs ▸ ht ▸ .button rfl

theorem exists_execButton_eq_next (hi : isButton i = true) (hs : s.phase = .input) : ∃ t, exec i s = .next t := by
  cases i with
  | rxb | wdt | txc | rst => cases hi
  | btnCam | btnMic | btnPlus | btnMinus | btnShot => exact ⟨_, requirePhase_of_eq hs _⟩

/-- In `P_IN` with legal counters, `TXC` answers a next state. -/
theorem exists_execTxc_eq_next (hcounters : countersLegal s = true) (hs : s.phase = .input) :
    ∃ t, execTxc s = .next t := by
  cases hdue : transmitDue s with
  | true => exact ⟨_, (execTxc_eq_next_iff s _).2 ⟨hs, .inl ⟨hdue, hcounters, rfl⟩⟩⟩
  | false => exact ⟨_, (execTxc_eq_next_iff s _).2 ⟨hs, .inr ⟨hdue, rfl⟩⟩⟩

/-- From a legal state, an operation the loop order takes answers a next state. -/
theorem exists_exec_eq_next (hlegal : s.Legal) (hs : s.phase = p) (h : LoopStep p i q) : ∃ t, exec i s = .next t := by
  obtain ⟨-, hcur, hcounters⟩ := hlegal
  cases h with
  | rxb b => exact exists_execRxb_eq_next b hcur hs
  | wdt => exact ⟨_, requirePhase_of_eq hs _⟩
  | button hi => exact exists_execButton_eq_next hi hs
  | txc => exact exists_execTxc_eq_next ((countersLegal_iff s).2 hcounters) hs
  | rst => exact ⟨_, rfl⟩

/-- The phase before and the operation fix the phase after. -/
theorem LoopStep.unique {q' : Phase} (h : LoopStep p i q) (h' : LoopStep p i q') : q = q' := by
  cases h with
  | button hi => cases h' with
    | button => rfl
    | txc | rst => cases hi
  | txc => cases h' with
    | button hi => cases hi
    | txc => rfl
  | rst => cases h' with
    | button hi => cases hi
    | rst => rfl
  | rxb | wdt =>
    cases h'
    rfl

/-- The loop order takes a list of operations from one phase to another. -/
inductive LoopRuns : Phase → List Instr → Phase → Prop where
  | nil (p : Phase) : LoopRuns p [] p
  | cons {p q r : Phase} {i : Instr} {is : List Instr} (h : LoopStep p i q) (hs : LoopRuns q is r) :
      LoopRuns p (i :: is) r

/-- A run that answers a next state is one the loop order takes. -/
theorem loopRuns_of_runOps_eq_next {ops : List (Time × Instr)} (h : runOps ops s = .next t) :
    LoopRuns s.phase (ops.map Prod.snd) t.phase := by
  induction ops generalizing s with
  | nil =>
    cases h
    exact .nil _
  | cons op ops ih =>
    obtain ⟨u, hu, h⟩ := (andThen_eq_next_iff _ _ _).1 h
    exact .cons (loopStep_of_exec_eq_next (s := s.atTime op.1) hu) (ih h)

/-- From a legal state, a run the loop order takes answers a next state. -/
theorem exists_runOps_eq_next {ops : List (Time × Instr)} (hlegal : s.Legal)
    (h : LoopRuns s.phase (ops.map Prod.snd) q) : ∃ t, runOps ops s = .next t := by
  induction ops generalizing s with
  | nil => exact ⟨s, rfl⟩
  | cons op ops ih =>
    obtain _ | ⟨hstep, hrest⟩ := h
    obtain ⟨u, hu⟩ := exists_exec_eq_next (s := s.atTime op.1) hlegal rfl hstep
    rw [hstep.unique (loopStep_of_exec_eq_next (s := s.atTime op.1) hu)] at hrest
    obtain ⟨t, ht⟩ := ih (exec_keeps_legal (s := s.atTime op.1) hlegal hu) hrest
    exact ⟨t, (andThen_eq_next_iff _ _ _).2 ⟨u, hu, ht⟩⟩

end Sys2Proof.Machine
end

section
/-! The lists of operations the loop order takes from `P_RX` are those of the grammar of 30_encoding.md R88. -/

namespace Sys2Proof.Machine

variable {i : Instr} {p q r : Phase} {as bs : List Instr}

theorem LoopStep.loopRuns (h : LoopStep p i q) : LoopRuns p [i] q := .cons h (.nil q)

theorem LoopRuns.append (ha : LoopRuns p as q) (hb : LoopRuns q bs r) : LoopRuns p (as ++ bs) r := by
  induction ha with
  | nil => exact hb
  | cons h _ ih => exact .cons h (ih hb)

theorem exists_loopRuns_of_append (h : LoopRuns p (as ++ bs) r) : ∃ q, LoopRuns p as q ∧ LoopRuns q bs r := by
  induction as generalizing p with
  | nil => exact ⟨p, .nil p, h⟩
  | cons a as ih =>
    obtain _ | ⟨hstep, hrest⟩ := h
    obtain ⟨q, ha, hb⟩ := ih hrest
    exact ⟨q, .cons hstep ha, hb⟩

/-- Lists that each take the loop from a phase back to it do so one after another. -/
theorem loopRuns_flatten {lists : List (List Instr)} (h : ∀ l ∈ lists, LoopRuns p l p) :
    LoopRuns p lists.flatten p := by
  induction lists with
  | nil => exact .nil p
  | cons l lists ih =>
    obtain ⟨hl, hlists⟩ := List.forall_mem_cons.1 h
    exact hl.append (ih hlists)

/-- Operations that each keep the phase keep it together. -/
theorem loopRuns_of_forall (h : ∀ i ∈ as, LoopStep p i p) : LoopRuns p as p := by
  induction as with
  | nil => exact .nil p
  | cons a as ih =>
    obtain ⟨ha, has⟩ := List.forall_mem_cons.1 h
    exact .cons ha (ih has)

theorem loopRuns_bytes (bytes : List Byte) : LoopRuns .rx (bytes.map Instr.rxb) .rx :=
  loopRuns_of_forall (List.forall_mem_map.2 fun b _ => .rxb b)

/-- The loop order takes a whole iteration. -/
theorem IsIteration.loopRuns (h : IsIteration as) : LoopRuns .rx as .rx := by
  obtain ⟨bytes, buttons, hbuttons, rfl⟩ := h
  have hpressed : LoopRuns .input buttons .input := loopRuns_of_forall fun b hb => .button (hbuttons b hb)
  exact (((loopRuns_bytes bytes).append LoopStep.wdt.loopRuns).append hpressed).append LoopStep.txc.loopRuns

/-- The loop order takes whole iterations and the beginning of one. -/
theorem IsLoopRun.loopRuns (h : IsLoopRun as) : ∃ q, LoopRuns .rx as q := by
  obtain ⟨iterations, begun, rest, hiterations, hbegun, rfl⟩ := h
  obtain ⟨q, hq, -⟩ := exists_loopRuns_of_append hbegun.loopRuns
  exact ⟨q, (loopRuns_flatten fun it hit => (hiterations it hit).loopRuns).append hq⟩

/-- The loop order takes every grammatical trace. -/
theorem Grammatical.loopRuns (h : Grammatical as) : ∃ q, LoopRuns .rx as q := by
  obtain ⟨parts, last, hparts, hlast, rfl⟩ := h
  obtain ⟨q, hq⟩ := hlast.loopRuns
  refine ⟨q, (loopRuns_flatten (List.forall_mem_map.2 fun part hpart => ?_)).append hq⟩
  obtain ⟨r, hr⟩ := (hparts part hpart).loopRuns
  exact hr.append (LoopStep.rst r).loopRuns

/-- The beginning of an iteration that stands in a phase: the drain, or all of it, the watchdog and some presses. -/
def BegunIn : Phase → List Instr → Prop
  | .rx, ops => ∃ bytes : List Byte, ops = bytes.map Instr.rxb
  | .input, ops => ∃ (bytes : List Byte) (buttons : List Instr),
      (∀ b ∈ buttons, isButton b = true) ∧ ops = bytes.map Instr.rxb ++ [.wdt] ++ buttons

/-- Whole iterations, then the beginning of one that stands in a phase. -/
def LoopRunIn (p : Phase) (ops : List Instr) : Prop :=
  ∃ (iterations : List (List Instr)) (begun : List Instr),
    (∀ it ∈ iterations, IsIteration it) ∧ BegunIn p begun ∧ ops = iterations.flatten ++ begun

/-- A grammatical trace that ends in a phase: what came before the last `RST`, then a loop run. -/
def GrammaticalIn (p : Phase) (ops : List Instr) : Prop :=
  ∃ (parts : List (List Instr)) (last : List Instr),
    (∀ part ∈ parts, IsLoopRun part) ∧ LoopRunIn p last ∧
      ops = (parts.map fun part => part ++ [Instr.rst]).flatten ++ last

theorem BegunIn.exists_isIteration (h : BegunIn p as) : ∃ rest, IsIteration (as ++ rest) := by
  cases p with
  | rx =>
    obtain ⟨bytes, rfl⟩ := h
    exact ⟨[.wdt, .txc], bytes, [], by simp, by simp⟩
  | input =>
    obtain ⟨bytes, buttons, hbuttons, rfl⟩ := h
    exact ⟨[.txc], bytes, buttons, hbuttons, rfl⟩

theorem LoopRunIn.isLoopRun (h : LoopRunIn p as) : IsLoopRun as := by
  obtain ⟨iterations, begun, hiterations, hbegun, rfl⟩ := h
  obtain ⟨rest, hrest⟩ := hbegun.exists_isIteration
  exact ⟨iterations, begun, rest, hiterations, hrest, rfl⟩

theorem GrammaticalIn.grammatical (h : GrammaticalIn p as) : Grammatical as := by
  obtain ⟨parts, last, hparts, hlast, rfl⟩ := h
  exact ⟨parts, last, hparts, hlast.isLoopRun, rfl⟩

theorem loopRunIn_nil : LoopRunIn .rx [] := ⟨[], [], by simp, ⟨[], rfl⟩, rfl⟩

/-- An operation that the loop order takes, other than `RST`, goes on with the iteration begun or ends it. -/
theorem LoopRunIn.snoc (h : LoopRunIn p as) (hstep : LoopStep p i q) (hrst : i ≠ .rst) : LoopRunIn q (as ++ [i]) := by
  obtain ⟨iterations, begun, hiterations, hbegun, rfl⟩ := h
  cases hstep with
  | rxb b =>
    obtain ⟨bytes, rfl⟩ := hbegun
    exact ⟨iterations, _, hiterations, ⟨bytes ++ [b], rfl⟩, by simp⟩
  | wdt =>
    obtain ⟨bytes, rfl⟩ := hbegun
    exact ⟨iterations, _, hiterations, ⟨bytes, [], by simp, rfl⟩, by simp⟩
  | button hi =>
    obtain ⟨bytes, buttons, hbuttons, rfl⟩ := hbegun
    have hpressed := List.forall_mem_append.2 ⟨hbuttons, List.forall_mem_singleton.2 hi⟩
    exact ⟨iterations, _, hiterations, ⟨bytes, _, hpressed, rfl⟩, by simp⟩
  | txc =>
    obtain ⟨bytes, buttons, hbuttons, rfl⟩ := hbegun
    have hended : IsIteration (bytes.map Instr.rxb ++ [.wdt] ++ buttons ++ [.txc]) := ⟨bytes, buttons, hbuttons, rfl⟩
    have hall := List.forall_mem_append.2 ⟨hiterations, List.forall_mem_singleton.2 hended⟩
    exact ⟨_, [], hall, ⟨[], rfl⟩, by simp⟩
  | rst => exact absurd rfl hrst

/-- An operation that the loop order takes keeps a trace grammatical: `RST` ends a part, any other goes on with it. -/
theorem GrammaticalIn.snoc (h : GrammaticalIn p as) (hstep : LoopStep p i q) : GrammaticalIn q (as ++ [i]) := by
  obtain ⟨parts, last, hparts, hlast, rfl⟩ := h
  by_cases hrst : i = .rst
  · subst hrst
    obtain rfl := hstep.unique (.rst p)
    have hall := List.forall_mem_append.2 ⟨hparts, List.forall_mem_singleton.2 hlast.isLoopRun⟩
    exact ⟨_, [], hall, loopRunIn_nil, by simp⟩
  · exact ⟨parts, last ++ [i], hparts, hlast.snoc hstep hrst, by simp⟩

theorem grammaticalIn_of_loopRuns (h : LoopRuns .rx as q) : GrammaticalIn q as := by
  induction as using List.reverseRecOn generalizing q with
  | nil =>
    cases h
    exact ⟨[], [], by simp, loopRunIn_nil, rfl⟩
  | append_singleton as i ih =>
    obtain ⟨p, hp, _ | ⟨hstep, _ | _⟩⟩ := exists_loopRuns_of_append h
    exact (ih hp).snoc hstep

/-- Settles O9: a run follows the loop order, which from `P_RX` takes exactly the grammatical traces. -/
theorem grammaticalTracesAreThoseThatRun : Obligations.GrammaticalTracesAreThoseThatRun := by
  intro ops s hlegal hs
  constructor
  · rintro ⟨t, h⟩
    exact (grammaticalIn_of_loopRuns (hs ▸ loopRuns_of_runOps_eq_next h)).grammatical
  · intro h
    obtain ⟨q, hq⟩ := h.loopRuns
    exact exists_runOps_eq_next hlegal (hs ▸ hq)

end Sys2Proof.Machine
end

section
/-! The delimiter in the output stream (30_encoding.md R72, R75, R77), and the counter values a transmission never
carries (R75). -/

namespace Sys2Proof.Machine

/-- The delimiter 0xFE, 0xFF stands at positions `i` and `i + 1` of a stream. -/
def DelimiterAt (out : List Byte) (i : Nat) : Prop := out[i]? = some 0xFE ∧ out[i + 1]? = some 0xFF

theorem ne_delim0_of_toNat_le {b : Byte} (h : b.toNat ≤ 253) : b ≠ 0xFE#8 := by
  rintro rfl
  exact absurd h (by decide)

/-- Among a frame's eight positions the delimiter stands at offset 6 only: no request byte or counter is 0xFE, and a
checksum that is 0xFE is followed by 0xFE. -/
theorem IsOutboundFrame.delimiterAt_append_iff {f : List Byte} (hf : IsOutboundFrame f) (out : List Byte) {i : Nat}
    (hi : i < 8) :
    DelimiterAt (f ++ out) i ↔ i = 6 := by
  obtain ⟨cr, mr, p, n, s, hcr, hmr, hp, hn, hs, rfl⟩ := hf
  have hcr : cr ≠ 0xFE#8 := by rcases hcr with rfl | rfl <;> decide
  have hmr : mr ≠ 0xFE#8 := by rcases hmr with rfl | rfl <;> decide
  have hp := ne_delim0_of_toNat_le hp
  have hn := ne_delim0_of_toNat_le hn
  have hs := ne_delim0_of_toNat_le hs
  interval_cases i <;> simp [DelimiterAt, hcr, hmr, hp, hn, hs]

theorem IsOutboundFrame.length_eq {f : List Byte} (hf : IsOutboundFrame f) : f.length = 8 := by
  obtain ⟨cr, mr, p, n, s, -, -, -, -, -, rfl⟩ := hf
  rfl

/-- Past a frame, the delimiter stands where it stands in the rest of the stream. -/
theorem delimiterAt_append_add_length (f out : List Byte) (i : Nat) :
    DelimiterAt (f ++ out) (f.length + i) ↔ DelimiterAt out i := by
  simp [DelimiterAt, Nat.add_assoc, List.getElem?_append_right]

/-- The delimiter of a framed stream ends each frame: the first frame decides its own eight positions, the rest of the
stream all others. -/
theorem FramedStream.delimiterAt_iff {out : List Byte} (hout : FramedStream out) (i : Nat) :
    DelimiterAt out i ↔ i % 8 = 6 ∧ i < out.length := by
  obtain ⟨frames, hframes, rfl⟩ := hout
  induction frames generalizing i with
  | nil => simp [DelimiterAt]
  | cons f frames ih =>
    obtain ⟨hf, hframes⟩ := List.forall_mem_cons.1 hframes
    have hlen := hf.length_eq
    rw [List.flatten_cons, List.length_append, hlen]
    by_cases hi : i < 8
    · rw [hf.delimiterAt_append_iff _ hi]
      omega
    · obtain ⟨j, rfl⟩ := Nat.exists_eq_add_of_le (Nat.le_of_not_lt hi)
      rw [← hlen, delimiterAt_append_add_length, hlen, ih _ hframes]
      omega

/-- Settles O28: the invariant's output stream is a framed one. -/
theorem outboundDelimiterOnlyAtFrameEnds : Obligations.OutboundDelimiterOnlyAtFrameEnds :=
  fun _ ⟨_, hframed⟩ i => hframed.delimiterAt_iff i

/-- Settles O24: the one case in which `TXC` faults. -/
theorem reservedCounterIsNeverEmitted : Obligations.ReservedCounterIsNeverEmitted := by
  intro s hp hdue hcounter
  have hlegal : countersLegal s = false := by
    rw [← Bool.not_eq_true, countersLegal_iff]
    omega
  exact (execTxc_eq_fault_iff s _).2 ⟨hp, (transmitDue_iff s).2 hdue, hlegal, rfl⟩

end Sys2Proof.Machine
end

section
/-! The text of a trace and the events it stands for (30_encoding.md R86, R87). -/

namespace Sys2Proof.Machine

/-- The events of a trace of one line with a time of its own: those of its expansion, each at that time. -/
theorem assemble_singleton (now : Nat) (item : TraceItem) :
    assemble [⟨some now, item⟩] = item.expand.map fun i => ⟨BitVec.ofNat 32 now, encode i⟩ :=
  List.append_nil _

/-- Settles O46: each is a trace of one line. -/
theorem pseudoOperationsExpand : Obligations.PseudoOperationsExpand := by
  refine ⟨fun now c m => assemble_singleton now _, fun now c m k => assemble_singleton now _, fun now bytes => ?_,
    fun now => assemble_singleton now _⟩
  exact (assemble_singleton now _).trans List.map_map

/-- What reading a trace line has to know of a hexadecimal digit: it ends no word and no line, and it reads back. -/
theorem hexDigit_reads {n : Nat} (hn : n < 16) :
    hexDigit n ≠ ';' ∧ isSeparator (hexDigit n) = false ∧ digitValue 16 (hexDigit n) = some n := by
  revert n
  decide

/-- The text of `RXB` falls into its mnemonic and its operand. -/
theorem words_rxb_text (b : Byte) :
    wordsFrom [] (dropComment (Instr.rxb b).text) =
      [['R', 'X', 'B'], ['0', 'x', hexDigit (b.toNat / 16), hexDigit (b.toNat % 16)]] := by
  obtain ⟨hhigh, hhigh', -⟩ := hexDigit_reads (n := b.toNat / 16) (by omega)
  obtain ⟨hlow, hlow', -⟩ := hexDigit_reads (n := b.toNat % 16) (by omega)
  simp_all [Instr.text, dropComment, wordsFrom, isSeparator]

/-- Two hexadecimal digits read back as the byte they were written from. -/
theorem hexByte_hexDigits (b : Byte) :
    hexByte ['0', 'x', hexDigit (b.toNat / 16), hexDigit (b.toNat % 16)] = some b := by
  obtain ⟨-, -, hhigh⟩ := hexDigit_reads (n := b.toNat / 16) (by omega)
  obtain ⟨-, -, hlow⟩ := hexDigit_reads (n := b.toNat % 16) (by omega)
  have hvalue : b.toNat / 16 * 16 + b.toNat % 16 = b.toNat := by omega
  simp [hexByte, hexadecimal, digitsFrom, hhigh, hlow, hvalue, asByte, b.isLt]

/-- Settles O47: the byte of `RXB` by its two digits, every other text by reading it. -/
theorem operationTextReadsBack : Obligations.OperationTextReadsBack := by
  intro i
  cases i with
  | rxb b =>
    simp [parseLine, words_rxb_text, parseWords, parseItem, parseRxb, hexByte_hexDigits, checkedLine,
      TraceLine.wf, TraceItem.wf, Instr.wf]
  | wdt | txc | btnCam | btnMic | btnPlus | btnMinus | btnShot | rst => decide

end Sys2Proof.Machine
end

section
/-! The Frame Codec as a function of the byte: what a store and a boundary check leave, and `RXB` as one of them
(40_frame_codec.md R102). -/

namespace Sys2Proof.Machine

variable {b : Byte} {s : State}

/-- The state after `RXB b` stores its byte. -/
def stored (b : Byte) (s : State) : State :=
  { s with rxBuf := Memory.write s.rxBuf s.rxCur.toNat b, rxPrev := b, rxCur := nextCursor s.rxCur }

theorem read_stored_same (b : Byte) (hs : s.Legal) : Memory.read (stored b s).rxBuf s.rxCur.toNat = b := by
  obtain ⟨⟨hrising, _⟩, _⟩ := hs
  exact Memory.read_write_same hrising _ _

theorem read_stored_other (b : Byte) {a : Nat} (h : a ≠ s.rxCur.toNat) :
    Memory.read (stored b s).rxBuf a = Memory.read s.rxBuf a := Memory.read_write_other _ b h

/-- The cells a boundary checks fit: the first two xor to the third. -/
abbrev State.CellsPass (s : State) : Prop :=
  Memory.read s.rxBuf 0 ^^^ Memory.read s.rxBuf 1 = Memory.read s.rxBuf 2

/-- The state after a boundary. -/
def checked (s : State) : State :=
  { (if s.CellsPass then accept (Memory.read s.rxBuf 0) (Memory.read s.rxBuf 1) s else s) with rxCur := 0 }

/-- The state after `RXB b`. -/
def received (b : Byte) (s : State) : State := if s.rxPrev = 0xFE ∧ b = 0xFF then checked s else stored b s

/-- The registers an accepted frame writes, the cursor apart, are as they were. -/
abbrev LinkKept (s t : State) : Prop :=
  t.camActive = s.camActive ∧ t.micActive = s.micActive ∧ t.linkUp = s.linkUp ∧ t.tRx = s.tRx

theorem checked_of_pass (h : s.CellsPass) :
    checked s = { accept (Memory.read s.rxBuf 0) (Memory.read s.rxBuf 1) s with rxCur := 0 } := by
  rw [checked, if_pos h]

theorem checked_of_fail (h : ¬s.CellsPass) : checked s = { s with rxCur := 0 } := by
  rw [checked, if_neg h]

@[simp] theorem checked_rxCur (s : State) : (checked s).rxCur = 0 := rfl

@[simp] theorem checked_rxBuf (s : State) : (checked s).rxBuf = s.rxBuf := by
  unfold checked
  split_ifs <;> rfl

@[simp] theorem checked_rxPrev (s : State) : (checked s).rxPrev = s.rxPrev := by
  unfold checked
  split_ifs <;> rfl

@[simp] theorem checked_phase (s : State) : (checked s).phase = s.phase := by
  unfold checked
  split_ifs <;> rfl

/-- A confirmed bit is set exactly for a byte that is not 0x00 (30_encoding.md R74). -/
theorem byte2bool_eq_decide (v : Byte) : byte2bool v = decide (v ≠ 0) := by
  rw [Bool.eq_iff_iff, byte2bool_iff, decide_eq_true_iff]

/-- A boundary whose cells pass confirms their values, at the time of the boundary. -/
theorem checked_accepts (h : s.CellsPass) :
    (checked s).camActive = decide (Memory.read s.rxBuf 0 ≠ 0) ∧
      (checked s).micActive = decide (Memory.read s.rxBuf 1 ≠ 0) ∧ (checked s).linkUp = true ∧
      (checked s).tRx = s.now ∧ (checked s).now = s.now := by
  rw [checked_of_pass h]
  exact ⟨byte2bool_eq_decide _, byte2bool_eq_decide _, rfl, rfl, rfl⟩

/-- A boundary whose cells fail leaves the link as it was. -/
theorem checked_discards (h : ¬s.CellsPass) : LinkKept s (checked s) := by
  rw [checked_of_fail h]
  exact ⟨rfl, rfl, rfl, rfl⟩

/-- A boundary right after another has the outcome of the first, at its own time. -/
theorem checked_atTime_checked (s : State) (now : Time) :
    checked ((checked s).atTime now) = checked (s.atTime now) := by
  have hsame : ((checked s).atTime now).CellsPass ↔ s.CellsPass := by simp [State.CellsPass]
  by_cases h : s.CellsPass
  · rw [checked_of_pass (hsame.2 h), checked_of_pass (s := s.atTime now) h, checked_of_pass h]
    rfl
  · rw [checked_of_fail (hsame.not.2 h), checked_of_fail (s := s.atTime now) h, checked_of_fail h]
    rfl

theorem exec_rxb_eq_checked (hp : s.phase = .rx) (hprev : s.rxPrev = 0xFE) :
    exec (.rxb 0xFF) s = .next (checked s) := by
  refine (execRxb_eq_next_iff 0xFF s _).2 ⟨hp, ?_⟩
  by_cases h : s.CellsPass
  · exact .inl ⟨hprev, rfl, h, checked_of_pass h⟩
  · exact .inr (.inl ⟨hprev, rfl, h, checked_of_fail h⟩)

theorem exec_rxb_eq_stored (hp : s.phase = .rx) (hcur : s.rxCur.toNat ≤ 4) (hb : ¬(s.rxPrev = 0xFE ∧ b = 0xFF)) :
    exec (.rxb b) s = .next (stored b s) :=
  (execRxb_eq_next_iff b s _).2 ⟨hp, .inr (.inr ⟨hb, hcur, rfl⟩)⟩

/-- In `P_RX`, `RXB` takes a legal state to the state `received` gives. -/
theorem exec_rxb_eq_received (b : Byte) (hs : s.Legal) (hp : s.phase = .rx) :
    exec (.rxb b) s = .next (received b s) := by
  have ⟨_, hcur, _⟩ := hs
  unfold received
  split_ifs with hb
  · rw [hb.2, exec_rxb_eq_checked hp hb.1]
  · exact exec_rxb_eq_stored hp hcur hb

/-- Settles O10: the three outcomes, and the refusal of the loop-order table. -/
theorem rxbFollowsItsRule : Obligations.RxbFollowsItsRule := by
  refine fun s b => ⟨fun hp hprev hb hk => ?_, fun hp hprev hb hk => ?_,
    fun hp hb hcur => exec_rxb_eq_stored hp hcur hb, fun hp => exec_eq_refused rfl hp nofun⟩
  · rw [hb, exec_rxb_eq_checked hp hprev, checked_of_pass hk, accept, byte2bool_eq_decide, byte2bool_eq_decide]
    rfl
  · rw [hb, exec_rxb_eq_checked hp hprev, checked_of_fail hk]

/-- A run of 0xFF after a 0xFE ends in the state of one boundary at the last time: each re-checks the cells the one
before it left. -/
theorem runOps_repeated_delim1 (times : List Time) (last : Time) (hp : s.phase = .rx) (hprev : s.rxPrev = 0xFE) :
    runOps ((times ++ [last]).map fun now => (now, Instr.rxb 0xFF)) s = .next (checked (s.atTime last)) := by
  induction times generalizing s with
  | nil => exact congrArg (andThen · (runOps [])) (exec_rxb_eq_checked (s := s.atTime last) hp hprev)
  | cons now times ih =>
    rw [List.cons_append, List.map_cons, runOps_cons, exec_rxb_eq_checked (s := s.atTime now) hp hprev, andThen_next,
      ih (by simpa using hp) (by simpa using hprev), checked_atTime_checked, atTime_atTime]

/-- Settles O15. -/
theorem repeatedDelim1RepeatsTheOutcome : Obligations.RepeatedDelim1RepeatsTheOutcome := by
  intro times last s hp hprev
  rw [runOps_repeated_delim1 times last hp hprev]
  by_cases hk : s.CellsPass
  · rw [if_pos hk, checked_of_pass (s := s.atTime last) hk, accept, byte2bool_eq_decide, byte2bool_eq_decide]
    rfl
  · rw [if_neg hk, checked_of_fail (s := s.atTime last) hk]
    rfl

/-! ### Received bytes keep the state legal and in `P_RX` -/

theorem received_legal (b : Byte) (hs : s.Legal) (hp : s.phase = .rx) : (received b s).Legal :=
  execRxb_keeps_legal hs (exec_rxb_eq_received b hs hp)

theorem received_phase (b : Byte) (hs : s.Legal) (hp : s.phase = .rx) : (received b s).phase = .rx := by
  obtain ⟨-, -, -, -, -, -, hphase, -⟩ := execRxb_frame (exec_rxb_eq_received b hs hp)
  rw [hphase, hp]

/-- The byte last stored is 0xFE after a 0xFE, and after a 0xFF that a 0xFE made a boundary. -/
theorem received_rxPrev_eq_delim0_iff (b : Byte) (s : State) :
    (received b s).rxPrev = 0xFE ↔ b = 0xFE ∨ (s.rxPrev = 0xFE ∧ b = 0xFF) := by
  unfold received
  split_ifs with hb
  · simp [hb]
  · simp only [stored, hb, or_false]

end Sys2Proof.Machine
end

section
/-! Runs of received bytes (40_frame_codec.md R103 to R105): the run is a fold of `received`, and of `stored` alone
while no byte is a boundary. -/

namespace Sys2Proof.Machine

variable {s : State} {ops : List (Time × Instr)} {xs : List (Time × Byte)} {bytes : List Byte}

/-- The state after received bytes, each at its time. -/
def receivedAll (xs : List (Time × Byte)) (s : State) : State :=
  xs.foldl (fun s x => received x.2 (s.atTime x.1)) s

/-- The state after bytes that are all stored, each at its time. -/
def storedAll (xs : List (Time × Byte)) (s : State) : State :=
  xs.foldl (fun s x => stored x.2 (s.atTime x.1)) s

theorem receivedAll_append (xs ys : List (Time × Byte)) (s : State) :
    receivedAll (xs ++ ys) s = receivedAll ys (receivedAll xs s) := List.foldl_append

theorem receivedAll_keeps (xs : List (Time × Byte)) (hs : s.Legal) (hp : s.phase = .rx) :
    (receivedAll xs s).Legal ∧ (receivedAll xs s).phase = .rx := by
  induction xs generalizing s with
  | nil => exact ⟨hs, hp⟩
  | cons x xs ih =>
    exact ih (received_legal (s := s.atTime x.1) x.2 hs hp) (received_phase (s := s.atTime x.1) x.2 hs hp)

/-- A run of received bytes from a legal state in `P_RX` ends in the state `receivedAll` gives. -/
theorem runOps_rxb (xs : List (Time × Byte)) (hs : s.Legal) (hp : s.phase = .rx) :
    runOps (xs.map fun x => (x.1, Instr.rxb x.2)) s = .next (receivedAll xs s) := by
  induction xs generalizing s with
  | nil => rfl
  | cons x xs ih =>
    rw [List.map_cons, runOps_cons, exec_rxb_eq_received (s := s.atTime x.1) x.2 hs hp, andThen_next,
      ih (received_legal (s := s.atTime x.1) x.2 hs hp) (received_phase (s := s.atTime x.1) x.2 hs hp)]
    rfl

/-- Operations that are received bytes are bytes with their times. -/
theorem exists_eq_map_rxb (h : ops.map Prod.snd = bytes.map Instr.rxb) :
    ∃ xs : List (Time × Byte), xs.map Prod.snd = bytes ∧ ops = xs.map fun x => (x.1, Instr.rxb x.2) := by
  induction ops generalizing bytes with
  | nil => exact ⟨[], (List.map_eq_nil_iff.1 h.symm).symm, rfl⟩
  | cons op ops ih =>
    obtain ⟨b, bytes, rfl, hb, hrest⟩ := List.map_eq_cons_iff.1 h.symm
    obtain ⟨xs, rfl, rfl⟩ := ih hrest.symm
    exact ⟨(op.1, b) :: xs, rfl, by rw [List.map_cons, hb]⟩

/-- A run whose operations are received bytes, at whatever times. -/
theorem exists_runOps_eq_receivedAll (h : ops.map Prod.snd = bytes.map Instr.rxb) (hs : s.Legal) (hp : s.phase = .rx) :
    ∃ xs : List (Time × Byte), xs.map Prod.snd = bytes ∧ runOps ops s = .next (receivedAll xs s) := by
  obtain ⟨xs, hxs, rfl⟩ := exists_eq_map_rxb h
  exact ⟨xs, hxs, runOps_rxb xs hs hp⟩

/-! ### Where a boundary is armed -/

/-- The bytes end in 0xFE followed only by 0xFF. -/
def EndsArmed (bytes : List Byte) : Prop :=
  ∃ (before : List Byte) (n : Nat), bytes = before ++ 0xFE :: List.replicate n 0xFF

theorem not_endsArmed_nil : ¬EndsArmed [] := by
  rintro ⟨before, n, h⟩
  simp at h

theorem endsArmed_snoc_iff (bytes : List Byte) (b : Byte) :
    EndsArmed (bytes ++ [b]) ↔ b = 0xFE ∨ (EndsArmed bytes ∧ b = 0xFF) := by
  constructor
  · rintro ⟨before, _ | n, h⟩
    · exact .inl (List.singleton_inj.1 (List.append_inj' h rfl).2)
    · rw [List.replicate_succ', ← List.cons_append, ← List.append_assoc] at h
      obtain ⟨hbytes, hb⟩ := List.append_inj' h rfl
      exact .inr ⟨⟨before, n, hbytes⟩, List.singleton_inj.1 hb⟩
  · rintro (rfl | ⟨⟨before, n, rfl⟩, rfl⟩)
    · exact ⟨bytes, 0, rfl⟩
    · exact ⟨before, n + 1, by simp [List.replicate_succ']⟩

theorem receivedAll_rxPrev_eq_delim0_iff (xs : List (Time × Byte)) (h : s.rxPrev ≠ 0xFE) :
    (receivedAll xs s).rxPrev = 0xFE ↔ EndsArmed (xs.map Prod.snd) := by
  induction xs using List.reverseRecOn with
  | nil => exact iff_of_false h not_endsArmed_nil
  | append_singleton xs x ih =>
    rw [receivedAll_append, List.map_append, List.map_singleton, endsArmed_snoc_iff, ← ih]
    exact received_rxPrev_eq_delim0_iff x.2 _

/-- Settles O14, by induction on the stream from its end. -/
theorem boundaryIsArmedByDelim0ThenOnlyDelim1 : Obligations.BoundaryIsArmedByDelim0ThenOnlyDelim1 :=
  fun bytes _ hs hp hprev => ⟨_, runOps_rxb bytes hs hp, receivedAll_rxPrev_eq_delim0_iff bytes hprev⟩

/-- Settles O13: a 0xFE is no boundary, and a 0xFF after it is one. -/
theorem receivedDelim0IsStoredAndArmsTheBoundary : Obligations.ReceivedDelim0IsStoredAndArmsTheBoundary := by
  intro s hs hp
  have ⟨_, hcur, _⟩ := hs
  refine ⟨stored 0xFE s, exec_rxb_eq_stored hp hcur (by simp), rfl, read_stored_same 0xFE hs, fun now => ?_⟩
  exact ⟨_, exec_rxb_eq_checked hp rfl, checked_rxCur _, checked_rxBuf _, checked_rxPrev _⟩

/-! ### Streams with no boundary -/

/-- No byte of the stream is a boundary when `prev` is the byte stored before it. -/
def NoBoundary (prev : Byte) (bytes : List Byte) : Prop :=
  (prev :: bytes).IsChain fun a b => ¬(a = 0xFE ∧ b = 0xFF)

/-- A stream without the pair 0xFE, 0xFF has no boundary after a byte other than 0xFE. -/
theorem noBoundary_of_pair_free {prev : Byte} (hprev : prev ≠ 0xFE)
    (h : ∀ before after : List Byte, bytes ≠ before ++ 0xFE :: 0xFF :: after) : NoBoundary prev bytes := by
  refine List.isChain_cons.2 ⟨fun b _ hb => hprev hb.1, List.isChain_iff_forall_rel_of_append_cons_cons.2 ?_⟩
  rintro a b before after hbytes ⟨rfl, rfl⟩
  exact h before after hbytes

/-- A stream without 0xFF has no boundary. -/
theorem noBoundary_of_forall_ne {bytes : List Byte} (h : ∀ b ∈ bytes, b ≠ 0xFF) (prev : Byte) :
    NoBoundary prev bytes := by
  induction bytes generalizing prev with
  | nil => exact List.isChain_singleton _
  | cons b bytes ih =>
    obtain ⟨hb, hbytes⟩ := List.forall_mem_cons.1 h
    exact List.isChain_cons_cons.2 ⟨fun hpair => hb hpair.2, ih hbytes b⟩

theorem receivedAll_eq_storedAll (h : NoBoundary s.rxPrev (xs.map Prod.snd)) : receivedAll xs s = storedAll xs s := by
  induction xs generalizing s with
  | nil => rfl
  | cons x xs ih =>
    obtain ⟨hx, hxs⟩ := List.isChain_cons_cons.1 h
    have hstored : received x.2 (s.atTime x.1) = stored x.2 (s.atTime x.1) := if_neg hx
    exact (congrArg (receivedAll xs) hstored).trans (ih hxs)

theorem storedAll_snoc (xs : List (Time × Byte)) (x : Time × Byte) (s : State) :
    storedAll (xs ++ [x]) s = stored x.2 ((storedAll xs s).atTime x.1) := List.foldl_append

/-- Stored bytes leave the link as it was. -/
theorem storedAll_keeps_link (xs : List (Time × Byte)) (s : State) : LinkKept s (storedAll xs s) := by
  induction xs using List.reverseRecOn with
  | nil => exact ⟨rfl, rfl, rfl, rfl⟩
  | append_singleton xs x ih => rw [storedAll_snoc]; exact ih

/-- Stored bytes move the cursor by their number, modulo 5. -/
theorem storedAll_rxCur (xs : List (Time × Byte)) (h : s.rxCur.toNat ≤ 4) :
    (storedAll xs s).rxCur.toNat = (s.rxCur.toNat + xs.length) % 5 := by
  induction xs using List.reverseRecOn with
  | nil => exact (Nat.mod_eq_of_lt (Nat.lt_succ_of_le h)).symm
  | append_singleton xs x ih =>
    have hcur : (storedAll (xs ++ [x]) s).rxCur = nextCursor (storedAll xs s).rxCur := by rw [storedAll_snoc]; rfl
    rw [hcur, nextCursor_toNat (by omega), ih, List.length_append, List.length_singleton]
    omega

/-- Settles O16: a stream without the pair is stored byte by byte. -/
theorem noiseIsStoredAndNeverAccepted : Obligations.NoiseIsStoredAndNeverAccepted := by
  intro bytes s hs hp hprev hpair
  have ⟨_, hcur, _⟩ := hs
  obtain ⟨hcam, hmic, hlink, htime⟩ := storedAll_keeps_link bytes s
  refine ⟨storedAll bytes s, ?_, hcam, hmic, hlink, htime, storedAll_rxCur bytes hcur⟩
  rw [runOps_rxb bytes hs hp, receivedAll_eq_storedAll (noBoundary_of_pair_free hprev hpair)]

end Sys2Proof.Machine
end

section
/-! Inbound frames (40_frame_codec.md R106 to R108): every frame ends in a boundary, and one whose first byte finds the
cursor at 0 is checked by its own first three bytes. -/

namespace Sys2Proof.Machine

variable {s : State} {xs : List (Time × Byte)} {bytes : List Byte} {b0 b1 b2 : Byte}

theorem receivedAll_rxPrev_of_ends_in_delim0 (h : xs.map Prod.snd = bytes ++ [0xFE]) (s : State) :
    (receivedAll xs s).rxPrev = 0xFE := by
  obtain ⟨before, last, rfl, -, hlast⟩ := List.map_eq_append_iff.1 h
  obtain ⟨x, rfl, hx⟩ := List.map_eq_singleton_iff.1 hlast
  rw [receivedAll_append]
  exact (received_rxPrev_eq_delim0_iff x.2 _).2 (.inl hx)

/-- Bytes that end in 0xFE, 0xFF end in a boundary, wherever the cursor stands. -/
theorem exists_receivedAll_eq_checked (h : xs.map Prod.snd = bytes ++ [0xFE] ++ [0xFF]) (s : State) :
    ∃ (ys : List (Time × Byte)) (now : Time), ys.map Prod.snd = bytes ++ [0xFE] ∧
      receivedAll xs s = checked ((receivedAll ys s).atTime now) := by
  obtain ⟨ys, last, rfl, hys, hlast⟩ := List.map_eq_append_iff.1 h
  obtain ⟨⟨now, _⟩, rfl, rfl⟩ := List.map_eq_singleton_iff.1 hlast
  refine ⟨ys, now, hys, ?_⟩
  rw [receivedAll_append]
  exact if_pos ⟨receivedAll_rxPrev_of_ends_in_delim0 hys s, rfl⟩

theorem receivedAll_ends_in_boundary (h : xs.map Prod.snd = bytes ++ [0xFE] ++ [0xFF]) (s : State) :
    (receivedAll xs s).rxCur = 0 ∧ (receivedAll xs s).rxPrev = 0xFE := by
  obtain ⟨ys, now, hys, hchecked⟩ := exists_receivedAll_eq_checked h s
  rw [hchecked, checked_rxPrev]
  exact ⟨rfl, receivedAll_rxPrev_of_ends_in_delim0 hys s⟩

theorem stored_legal (b : Byte) (hs : s.Legal) : (stored b s).Legal := by
  obtain ⟨hbuf, hcur, hcounters⟩ := hs
  exact ⟨Memory.wf_write hbuf (Nat.lt_succ_of_le hcur) b, nextCursor_le _, hcounters⟩

theorem storedAll_legal (xs : List (Time × Byte)) (hs : s.Legal) : (storedAll xs s).Legal := by
  induction xs generalizing s with
  | nil => exact hs
  | cons x xs ih => exact ih (stored_legal (s := s.atTime x.1) x.2 hs)

/-- Stored bytes that do not run past the last cell stand in the buffer one after another, from the cursor on. -/
theorem read_storedAll (hs : s.Legal) (hfit : s.rxCur.toNat + xs.length ≤ 5) {i : Nat} {b : Byte}
    (hi : (xs.map Prod.snd)[i]? = some b) : Memory.read (storedAll xs s).rxBuf (s.rxCur.toNat + i) = b := by
  induction xs using List.reverseRecOn with
  | nil => simp at hi
  | append_singleton xs x ih =>
    rw [List.length_append, List.length_singleton] at hfit
    have hcur : (storedAll xs s).rxCur.toNat = s.rxCur.toNat + xs.length := by
      rw [storedAll_rxCur xs (by omega), Nat.mod_eq_of_lt (by omega)]
    rw [List.map_append, List.map_singleton] at hi
    rw [storedAll_snoc]
    by_cases hlast : i = xs.length
    · have hb : x.2 = b := by simpa [hlast] using hi
      have hcell := read_stored_same (s := (storedAll xs s).atTime x.1) x.2 (storedAll_legal xs hs)
      rw [atTime_rxCur, hcur, ← hlast] at hcell
      exact hcell.trans hb
    · have hlt : i < xs.length := by
        obtain ⟨hlt, -⟩ := List.getElem?_eq_some_iff.1 hi
        rw [List.length_append, List.length_map, List.length_singleton] at hlt
        omega
      rw [List.getElem?_append_left (by simpa using hlt)] at hi
      rw [read_stored_other _ (by rw [atTime_rxCur, hcur]; omega), atTime_rxBuf, ih (by omega) hi]

/-- A frame whose first byte finds the cursor at 0, and whose first three bytes are none of them 0xFF, is checked with
those three bytes in the cells, the link being as it was before the frame. -/
theorem exists_checked_of_aligned_frame (hs : s.Legal) (hcur : s.rxCur = 0)
    (hne : b0 ≠ 0xFF ∧ b1 ≠ 0xFF ∧ b2 ≠ 0xFF) (h : xs.map Prod.snd = [b0, b1, b2, 0xFE, 0xFF]) :
    ∃ u, receivedAll xs s = checked u ∧ Memory.read u.rxBuf 0 = b0 ∧ Memory.read u.rxBuf 1 = b1 ∧
      Memory.read u.rxBuf 2 = b2 ∧ LinkKept s u := by
  obtain ⟨ys, now, hys, hchecked⟩ := exists_receivedAll_eq_checked (bytes := [b0, b1, b2]) h s
  obtain ⟨hne0, hne1, hne2⟩ := hne
  have hnone : ∀ b ∈ [b0, b1, b2] ++ [0xFE], b ≠ (0xFF : Byte) :=
    List.forall_mem_cons.2 ⟨hne0, List.forall_mem_cons.2 ⟨hne1, List.forall_mem_cons.2 ⟨hne2, by decide⟩⟩⟩
  have hstored : receivedAll ys s = storedAll ys s :=
    receivedAll_eq_storedAll (hys ▸ noBoundary_of_forall_ne hnone s.rxPrev)
  have hlen : ys.length = 4 := by simpa using congrArg List.length hys
  have hread {i : Nat} {b : Byte} (hi : ([b0, b1, b2] ++ [0xFE])[i]? = some b) :
      Memory.read (storedAll ys s).rxBuf i = b := by
    have hcell := read_storedAll hs (by simp [hcur, hlen]) (hys ▸ hi)
    simpa [hcur] using hcell
  rw [hstored] at hchecked
  exact ⟨_, hchecked, hread rfl, hread rfl, hread rfl, storedAll_keeps_link ys s⟩

/-- The bytes of a well-formed inbound frame that stand before its delimiter are none of them 0xFF. -/
theorem ne_delim1_of_wellFormed {c m : Byte} (hc : c = 0 ∨ c = 1) (hm : m = 0 ∨ m = 1) :
    c ≠ 0xFF ∧ m ≠ 0xFF ∧ c ^^^ m ≠ 0xFF := by
  rcases hc with rfl | rfl <;> rcases hm with rfl | rfl <;> decide

/-- A well-formed frame whose first byte finds the cursor at 0 is accepted with its values, at its last byte's time. -/
theorem receivedAll_accepts_aligned_frame {c m : Byte} (hs : s.Legal) (hcur : s.rxCur = 0) (hc : c = 0 ∨ c = 1)
    (hm : m = 0 ∨ m = 1) (h : xs.map Prod.snd = [c, m, c ^^^ m, 0xFE, 0xFF]) :
    (receivedAll xs s).camActive = decide (c ≠ 0) ∧ (receivedAll xs s).micActive = decide (m ≠ 0) ∧
      (receivedAll xs s).linkUp = true ∧ (receivedAll xs s).tRx = (receivedAll xs s).now := by
  obtain ⟨u, hchecked, h0, h1, h2, -⟩ := exists_checked_of_aligned_frame hs hcur (ne_delim1_of_wellFormed hc hm) h
  have hpass : u.CellsPass := by rw [State.CellsPass, h0, h1, h2]
  obtain ⟨hcam, hmic, hlink, htime, hnow⟩ := checked_accepts hpass
  rw [hchecked, hcam, hmic, hlink, htime, hnow, h0, h1]
  exact ⟨rfl, rfl, rfl, rfl⟩

/-- Settles O17: the first of the two frames takes the cursor to 0, wherever the garbage left it. -/
theorem decoderResynchronises : Obligations.DecoderResynchronises := by
  intro ops s c m hs hp hc hm
  refine ⟨fun hops => ?_, fun garbage c' m' _ _ hops => ?_⟩
  · obtain ⟨xs, hxs, hrun⟩ := exists_runOps_eq_receivedAll (bytes := [c, m, c ^^^ m, 0xFE, 0xFF]) hops hs hp
    obtain ⟨hcur, hprev⟩ := receivedAll_ends_in_boundary (bytes := [c, m, c ^^^ m]) hxs s
    exact ⟨_, hrun, hcur, hprev, fun hcur0 => receivedAll_accepts_aligned_frame hs hcur0 hc hm hxs⟩
  · obtain ⟨xs, hxs, hrun⟩ := exists_runOps_eq_receivedAll (s := s)
      (bytes := (garbage ++ [c', m', c' ^^^ m'] ++ [0xFE] ++ [0xFF]) ++ [c, m, c ^^^ m, 0xFE, 0xFF])
      (hops.trans (by simp [Pseudo.expand])) hs hp
    obtain ⟨before, frame, rfl, hbefore, hframe⟩ := List.map_eq_append_iff.1 hxs
    obtain ⟨hlegal, -⟩ := receivedAll_keeps before hs hp
    obtain ⟨haligned, -⟩ := receivedAll_ends_in_boundary hbefore s
    obtain ⟨hcur, -⟩ := receivedAll_ends_in_boundary (bytes := [c, m, c ^^^ m]) hframe (receivedAll before s)
    rw [receivedAll_append] at hrun
    exact ⟨_, hrun, hcur, receivedAll_accepts_aligned_frame hlegal haligned hc hm hframe⟩

/-- An aligned frame whose first three bytes fail the check leaves the link as it was. -/
theorem receivedAll_discards_aligned_frame (hs : s.Legal) (hcur : s.rxCur = 0)
    (hne : b0 ≠ 0xFF ∧ b1 ≠ 0xFF ∧ b2 ≠ 0xFF) (hfail : b0 ^^^ b1 ≠ b2)
    (h : xs.map Prod.snd = [b0, b1, b2, 0xFE, 0xFF]) : LinkKept s (receivedAll xs s) := by
  obtain ⟨u, hchecked, h0, h1, h2, hkept⟩ := exists_checked_of_aligned_frame hs hcur hne h
  have hcells : ¬u.CellsPass := by rwa [State.CellsPass, h0, h1, h2]
  obtain ⟨hcam, hmic, hlink, htime⟩ := checked_discards hcells
  rw [hchecked, LinkKept, hcam, hmic, hlink, htime]
  exact hkept

theorem ne_of_flip {bit : Nat} (h : bit < 8) (b : Byte) : b ^^^ (1#8 <<< bit) ≠ b := by
  have hbit : 1#8 <<< bit ≠ 0 := by
    revert bit
    decide
  exact mt xor_left_eq_self_iff.1 hbit

/-- No single flip turns 0x00 or 0x01 into 0xFF. -/
theorem flip_ne_delim1 {bit : Nat} (h : bit < 8) {b : Byte} (hb : b = 0 ∨ b = 1) : b ^^^ (1#8 <<< bit) ≠ 0xFF := by
  rcases hb with rfl | rfl <;> revert bit <;> decide

/-- The first three bytes of the frame of `c` and `m`, with one bit of one of them flipped. -/
def OneBitFlipped (c m : Byte) (bit : Nat) (bs : Byte × Byte × Byte) : Prop :=
  bs = (c ^^^ (1#8 <<< bit), m, c ^^^ m) ∨ bs = (c, m ^^^ (1#8 <<< bit), c ^^^ m) ∨
    bs = (c, m, (c ^^^ m) ^^^ (1#8 <<< bit))

/-- A flip in `c` or `m` changes `c xor m` and not the checksum, a flip in the checksum changes it alone. -/
theorem check_fails_of_flip {c m : Byte} {bit : Nat} (h : bit < 8) (hflip : OneBitFlipped c m bit (b0, b1, b2)) :
    b0 ^^^ b1 ≠ b2 := by
  obtain hflip | hflip | hflip := hflip <;> cases hflip
  · rw [BitVec.xor_assoc, BitVec.xor_comm _ b1, ← BitVec.xor_assoc]
    exact ne_of_flip h _
  · rw [← BitVec.xor_assoc]
    exact ne_of_flip h _
  · exact (ne_of_flip h _).symm

theorem ne_delim1_of_flip {c m : Byte} {bit : Nat} (h : bit < 8) (hc : c = 0 ∨ c = 1) (hm : m = 0 ∨ m = 1)
    (hflip : OneBitFlipped c m bit (b0, b1, b2)) : b0 ≠ 0xFF ∧ b1 ≠ 0xFF ∧ b2 ≠ 0xFF := by
  have hk : c ^^^ m = 0 ∨ c ^^^ m = 1 := by rcases hc with rfl | rfl <;> rcases hm with rfl | rfl <;> decide
  obtain ⟨hc', hm', hk'⟩ := ne_delim1_of_wellFormed hc hm
  obtain hflip | hflip | hflip := hflip <;> cases hflip
  · exact ⟨flip_ne_delim1 h hc, hm', hk'⟩
  · exact ⟨hc', flip_ne_delim1 h hm, hk'⟩
  · exact ⟨hc', hm', flip_ne_delim1 h hk⟩

/-- Settles O18: the check of R102 sees the flip, and no flip makes a byte the 0xFF of a boundary. -/
theorem singleBitErrorIsRejected : Obligations.SingleBitErrorIsRejected := by
  intro ops s c m b0 b1 b2 bit hs hp hcur hc hm hbit hflip hops
  obtain ⟨xs, hxs, hrun⟩ := exists_runOps_eq_receivedAll (bytes := [b0, b1, b2, 0xFE, 0xFF]) hops hs hp
  obtain ⟨hcur', hprev⟩ := receivedAll_ends_in_boundary (bytes := [b0, b1, b2]) hxs s
  have hne := ne_delim1_of_flip hbit hc hm hflip
  exact ⟨_, hrun, hcur', hprev, receivedAll_discards_aligned_frame hs hcur hne (check_fails_of_flip hbit hflip) hxs⟩

/-- A byte stored with the cursor at 0 stands in cell 0 and leaves the other two cells of a check. -/
theorem cells_of_stored_at_zero (b : Byte) (hs : s.Legal) (hcur : s.rxCur = 0) :
    Memory.read (stored b s).rxBuf 0 = b ∧ Memory.read (stored b s).rxBuf 1 = Memory.read s.rxBuf 1 ∧
      Memory.read (stored b s).rxBuf 2 = Memory.read s.rxBuf 2 :=
  ⟨by simpa [hcur] using read_stored_same b hs, read_stored_other b (by simp [hcur]),
    read_stored_other b (by simp [hcur])⟩

/-- Settles O19: the 0xFE is stored in cell 0, and the check of the 0xFF finds cells 1 and 2 as they stood. -/
theorem shortFrameIsCheckedAgainstOlderBytes : Obligations.ShortFrameIsCheckedAgainstOlderBytes := by
  intro s now now' hs hp hcur
  have ⟨_, hle, _⟩ := hs
  obtain ⟨h0, h1, h2⟩ := cells_of_stored_at_zero (s := s.atTime now) 0xFE hs hcur
  have hrun : runOps [(now, .rxb 0xFE), (now', .rxb 0xFF)] s =
      .next (checked ((stored 0xFE (s.atTime now)).atTime now')) := by
    rw [runOps_cons, exec_rxb_eq_stored (s := s.atTime now) hp hle (by simp), andThen_next, runOps_cons,
      exec_rxb_eq_checked (s := (stored 0xFE (s.atTime now)).atTime now') hp rfl, andThen_next, runOps_nil]
  have hcells : ((stored 0xFE (s.atTime now)).atTime now').CellsPass ↔
      0xFE ^^^ Memory.read s.rxBuf 1 = Memory.read s.rxBuf 2 := by
    rw [State.CellsPass, atTime_rxBuf, h0, h1, h2, atTime_rxBuf]
  refine ⟨_, hrun, rfl, fun hk => ?_, fun hk => checked_discards (hcells.not.2 hk)⟩
  obtain ⟨hcam, hmic, hlink, htime, -⟩ := checked_accepts (hcells.2 hk)
  rw [hcam, hmic, atTime_rxBuf, h0, h1]
  exact ⟨rfl, rfl, hlink, htime⟩

end Sys2Proof.Machine
end

section
/-! The checksum and the outbound frame (40_frame_codec.md R100, R109, R110). -/

namespace Sys2Proof.Machine

theorem xorfold_cons (b : Byte) (l : List Byte) : xorfold (b :: l) = b ^^^ xorfold l := by
  rw [xorfold, List.foldl_cons, BitVec.xor_comm 0x00 b, List.foldl_assoc, xorfold]

/-- Settles O20. -/
theorem checksumFoldsInAnyOrder : Obligations.ChecksumFoldsInAnyOrder :=
  ⟨rfl, xorfold_cons, fun _ _ h => h.foldl_eq 0x00⟩

/-- The eight bytes of an outbound frame, written out. -/
theorem encodeFrame_eq (cr mr : Bool) (p n s : Byte) :
    encodeFrame cr mr p n s = [bool2byte cr, bool2byte mr, p, n, s,
      bool2byte cr ^^^ bool2byte mr ^^^ p ^^^ n ^^^ s, 0xFE, 0xFF] := by
  rw [encodeFrame, framePayload, xorfold_five]
  rfl

/-- Settles O21. -/
theorem encodeBuildsTheOutboundFrame : Obligations.EncodeBuildsTheOutboundFrame := encodeFrame_eq

/-- Everything the reference checker accepts. -/
theorem peerDecode_eq_some_iff (f : List Byte) (cr mr : Bool) (p n s : Byte) :
    peerDecode f = some (cr, mr, p, n, s) ↔ ∃ c m : Byte, byte2bool c = cr ∧ byte2bool m = mr ∧
      f = [c, m, p, n, s, c ^^^ m ^^^ p ^^^ n ^^^ s, 0xFE, 0xFF] := by
  constructor
  · intro h
    unfold peerDecode at h
    split at h
    · split_ifs at h with hfits
      obtain ⟨rfl, rfl, rfl⟩ := hfits
      cases h
      exact ⟨_, _, rfl, rfl, by rw [xorfold_five]; rfl⟩
    · cases h
  · rintro ⟨c, m, rfl, rfl, rfl⟩
    exact if_pos ⟨rfl, rfl, (xorfold_five c m p n s).symm⟩

/-- A request byte of 0x00 or 0x01 is the encoding of the bit it reads as. -/
theorem bool2byte_byte2bool {v : Byte} (h : v = 0 ∨ v = 1) : bool2byte (byte2bool v) = v := by
  rcases h with rfl | rfl <;> rfl

/-- Settles O22: both ways through what the checker accepts. -/
theorem peerRoundTrip : Obligations.PeerRoundTrip := by
  refine ⟨fun cr mr p n s => ?_, fun f cr mr p n s h hc hm => ?_⟩
  · exact (peerDecode_eq_some_iff _ cr mr p n s).2
      ⟨_, _, byte2bool_bool2byte cr, byte2bool_bool2byte mr, encodeFrame_eq cr mr p n s⟩
  · obtain ⟨c, m, rfl, rfl, rfl⟩ := (peerDecode_eq_some_iff f cr mr p n s).1 h
    rw [encodeFrame_eq, bool2byte_byte2bool (by simpa using hc), bool2byte_byte2bool (by simpa using hm)]

end Sys2Proof.Machine
end

section
/-! What an operation can do to the link (41_link_state_machine.md R121 to R123, 70_reset_and_hazards.md R190). -/

namespace Sys2Proof.Machine

variable {i : Instr} {s t : State}

/-- `link_up` after `WDT`, in numbers (41_link_state_machine.md R122). -/
theorem linkAfterWatchdog_eq (now tRx : Time) (linkUp : Bool) :
    linkAfterWatchdog now tRx linkUp = if 2000 ≤ (now - tRx).toNat then false else linkUp := by
  simp only [linkAfterWatchdog, linkTimedOut_iff]

/-- Settles O29. -/
theorem wdtFollowsItsRule : Obligations.WdtFollowsItsRule := by
  refine fun s => ⟨fun hp => ?_, fun hp => exec_eq_refused rfl hp nofun⟩
  rw [← linkAfterWatchdog_eq]
  exact requirePhase_of_eq hp _

/-- An accepted frame is a 0xFF after a stored 0xFE, with cells that fit. -/
theorem acceptsFrame_iff (i : Instr) (s : State) :
    acceptsFrame i s = true ↔ i = .rxb 0xFF ∧ s.rxPrev = 0xFE ∧ s.CellsPass := by
  cases i <;> simp [acceptsFrame, State.CellsPass, and_assoc, and_left_comm]

/-- What the operation `i`, answering `t` from `s`, does to the link and the confirmed states: of an accepted frame,
only that the link is Up since its time. -/
inductive LinkChange (i : Instr) (s t : State) : Prop where
  | accepted (haccepts : acceptsFrame i s = true) (hlink : t.linkUp = true) (htime : t.tRx = s.now)
  | expired (hwdt : i = .wdt) (helapsed : 2000 ≤ (s.now - s.tRx).toNat)
      (hexpired : t = { s with linkUp := false, phase := .input })
  | reset (hrst : i = .rst) (hreset : LinkKept State.reset t)
  | kept (hnot : acceptsFrame i s = false) (hkept : LinkKept s t)

theorem linkChange_of_execRxb {b : Byte} (h : exec (.rxb b) s = .next t) : LinkChange (.rxb b) s t := by
  obtain ⟨-, ⟨hprev, rfl, hpass, rfl⟩ | ⟨-, -, hfail, rfl⟩ | ⟨hn, -, rfl⟩⟩ := (execRxb_eq_next_iff b s t).1 h
  · exact .accepted ((acceptsFrame_iff _ _).2 ⟨rfl, hprev, hpass⟩) rfl rfl
  · exact .kept (by simp [acceptsFrame, hfail]) ⟨rfl, rfl, rfl, rfl⟩
  · exact .kept (by simpa [acceptsFrame] using fun hprev hb => absurd ⟨hprev, hb⟩ hn) ⟨rfl, rfl, rfl, rfl⟩

theorem linkChange_of_execWdt (h : exec .wdt s = .next t) : LinkChange .wdt s t := by
  obtain ⟨-, rfl⟩ := (execWdt_eq_next_iff s t).1 h
  by_cases helapsed : 2000 ≤ (s.now - s.tRx).toNat
  · exact .expired rfl helapsed (by rw [evaluateWatchdog, linkAfterWatchdog_eq, if_pos helapsed])
  · exact .kept rfl ⟨rfl, rfl, (linkAfterWatchdog_eq _ _ _).trans (if_neg helapsed), rfl⟩

/-- Everything an operation can do to the link when it answers a next state. -/
theorem linkChange_of_exec (h : exec i s = .next t) : LinkChange i s t := by
  cases i with
  | rxb b => exact linkChange_of_execRxb h
  | wdt => exact linkChange_of_execWdt h
  | rst =>
    obtain rfl := (execRst_eq_next_iff s t).1 h
    exact .reset rfl ⟨rfl, rfl, rfl, rfl⟩
  | txc | btnCam | btnMic | btnPlus | btnMinus | btnShot =>
    obtain ⟨hconfirmed, hlink, -⟩ := registersAreWrittenOnlyByTheirOperations _ s t h nofun
    obtain ⟨-, -, -, hcam, hmic, htime⟩ := hconfirmed nofun
    exact .kept rfl ⟨hcam, hmic, hlink nofun nofun, htime⟩

/-- Settles O30: only an accepted frame sets the link, and a change that takes it Down is an expiry or a reset. -/
theorem onlyAnAcceptedFrameBringsTheLinkUp : Obligations.OnlyAnAcceptedFrameBringsTheLinkUp := by
  intro i s t h
  cases linkChange_of_exec h with
  | accepted haccepts hlink => exact ⟨fun _ _ => haccepts, fun _ hdown => by simp [hlink] at hdown⟩
  | expired hwdt helapsed hexpired => exact ⟨fun _ hup => by simp [hexpired] at hup, fun _ _ => .inl ⟨hwdt, helapsed⟩⟩
  | reset hrst hreset =>
    obtain ⟨-, -, hlink, -⟩ := hreset
    exact ⟨fun _ hup => by simp [hlink, State.reset] at hup, fun _ _ => .inr hrst⟩
  | kept _ hkept =>
    obtain ⟨-, -, hlink, -⟩ := hkept
    exact ⟨fun hdown hup => by simp [hlink, hdown] at hup, fun hup hdown => by simp [hlink, hup] at hdown⟩

end Sys2Proof.Machine
end

section
/-! The accepted frames of a run, and what the render points show before the first of them
(41_link_state_machine.md R127, 70_reset_and_hazards.md R193). -/

namespace Sys2Proof.Machine

variable {i : Instr} {s t : State} {now : Nat} {ops : List (Nat × Instr)}

/-- The accepted frames of a run that begins with an operation that answers. -/
theorem acceptTimes_cons (h : exec i (s.atTime (BitVec.ofNat 32 now)) = .next t) (ops : List (Nat × Instr)) :
    acceptTimes ((now, i) :: ops) s = (if acceptsFrame i s then [now] else []) ++ acceptTimes ops t := by
  simp only [acceptTimes, h]
  split_ifs <;> rfl

/-- The check of a frame does not read the time. -/
@[simp] theorem acceptsFrame_atTime (i : Instr) (s : State) (now : Time) :
    acceptsFrame i (s.atTime now) = acceptsFrame i s := by
  cases i <;> rfl

/-- A frame is accepted at the time of an operation of the run. -/
theorem mem_of_mem_acceptTimes {τ : Nat} (h : τ ∈ acceptTimes ops s) : τ ∈ ops.map Prod.fst := by
  induction ops generalizing s with
  | nil => exact h
  | cons op ops ih =>
    obtain ⟨now, i⟩ := op
    cases hexec : exec i (s.atTime (BitVec.ofNat 32 now)) with
    | next t =>
      rw [acceptTimes_cons hexec] at h
      rcases List.mem_append.1 h with h | h
      · exact List.mem_cons.2 (.inl (by simpa using (List.mem_ite_nil_right.1 h).2))
      · exact List.mem_cons_of_mem _ (ih h)
    | fault r => simp [acceptTimes, hexec] at h
    | refused r => simp [acceptTimes, hexec] at h

/-- The link is Down and both confirmed states are off. -/
abbrev State.ShowsDown (s : State) : Prop := s.linkUp = false ∧ s.camActive = false ∧ s.micActive = false

/-- An operation that accepts no frame keeps the link Down and the confirmed states off. -/
theorem exec_keeps_showsDown (hs : s.ShowsDown) (hnot : acceptsFrame i s = false) (h : exec i s = .next t) :
    t.ShowsDown := by
  obtain ⟨hdown, hcamOff, hmicOff⟩ := hs
  cases linkChange_of_exec h with
  | accepted haccepts => simp [hnot] at haccepts
  | expired _ _ hexpired => exact hexpired ▸ ⟨rfl, hcamOff, hmicOff⟩
  | reset _ hreset =>
    obtain ⟨hcam, hmic, hlink, -⟩ := hreset
    exact ⟨hlink, hcam, hmic⟩
  | kept _ hkept =>
    obtain ⟨hcam, hmic, hlink, -⟩ := hkept
    exact ⟨hlink.trans hdown, hcam.trans hcamOff, hmic.trans hmicOff⟩

/-- What a render point shows are the registers of the state it ends in. -/
theorem eq_of_observe_eq_render {cam mic link : Bool} (h : observe i t = some (.render cam mic link)) :
    link = t.linkUp ∧ cam = t.camActive ∧ mic = t.micActive := by
  cases i <;> cases h
  exact ⟨rfl, rfl, rfl⟩

theorem clocked_cons (now : Nat) (i : Instr) (ops : List (Nat × Instr)) :
    clocked ((now, i) :: ops) = (BitVec.ofNat 32 now, i) :: clocked ops := rfl

/-- The observations of a run that begins with an operation that answers. -/
theorem observations_cons {now : Time} (h : exec i (s.atTime now) = .next t) (ops : List (Time × Instr)) :
    observations ((now, i) :: ops) s = (observe i t).toList ++ observations ops t := by
  simp only [observations, h]

/-- A run that accepts no frame, from a state that shows Down, shows Down at every render point. -/
theorem render_shows_down (hs : s.ShowsDown) (hnone : acceptTimes ops s = []) {cam mic link : Bool}
    (h : Observation.render cam mic link ∈ observations (clocked ops) s) :
    link = false ∧ cam = false ∧ mic = false := by
  induction ops generalizing s with
  | nil => cases h
  | cons op ops ih =>
    obtain ⟨now, i⟩ := op
    rw [clocked_cons] at h
    cases hexec : exec i (s.atTime (BitVec.ofNat 32 now)) with
    | next t =>
      rw [acceptTimes_cons hexec, List.append_eq_nil_iff] at hnone
      obtain ⟨hhead, hrest⟩ := hnone
      have hnot : acceptsFrame i (s.atTime (BitVec.ofNat 32 now)) = false := by simpa using hhead
      have ht : t.ShowsDown := exec_keeps_showsDown (s := s.atTime (BitVec.ofNat 32 now)) hs hnot hexec
      rw [observations_cons hexec] at h
      rcases List.mem_append.1 h with h | h
      · obtain ⟨rfl, rfl, rfl⟩ := eq_of_observe_eq_render (Option.mem_toList.1 h)
        exact ht
      · exact ih ht hrest h
    | fault r => simp [observations, hexec] at h
    | refused r => simp [observations, hexec] at h

/-- Settles O33: the reset state shows Down. -/
theorem renderShowsDownUntilTheFirstFrame : Obligations.RenderShowsDownUntilTheFirstFrame :=
  fun _ hnone _ _ _ => render_shows_down ⟨rfl, rfl, rfl⟩ hnone

end Sys2Proof.Machine
end

section
/-! The link after a `WDT`, by the last accepted frame of the run before it (41_link_state_machine.md R124, R126). -/

namespace Sys2Proof.Machine

variable {i : Instr} {s t : State} {last : Option Nat} {now w : Nat} {ops : List (Nat × Instr)}

/-- The link at real time `now`, when `last` is the real time of the last accepted frame: Down before the first frame;
after a frame `t_rx` holds its time, and the link is Up unless 2000 ms have passed since. -/
inductive LinkRecord : Option Nat → Nat → State → Prop where
  | never {now : Nat} {s : State} (hdown : s.linkUp = false) : LinkRecord none now s
  | since {τ now : Nat} {s : State} (hle : τ ≤ now) (htime : s.tRx = BitVec.ofNat 32 τ)
      (hlink : s.linkUp = true ∨ τ + 2000 ≤ now) : LinkRecord (some τ) now s

theorem LinkRecord.later (hs : LinkRecord last now s) (hle : now ≤ w) : LinkRecord last w s := by
  cases hs with
  | never hdown => exact .never hdown
  | since hτ htime hlink => exact .since (hτ.trans hle) htime (hlink.imp_right hle.trans')

theorem LinkRecord.of_linkKept (hs : LinkRecord last now s) (h : LinkKept s t) : LinkRecord last now t := by
  obtain ⟨-, -, hlink, htime⟩ := h
  cases hs with
  | never hdown => exact .never (hlink.trans hdown)
  | since hle hτ hup => exact .since hle (htime.trans hτ) (hlink ▸ hup)

/-- Elapsed time modulo 2^32 is never more than the elapsed real time. -/
theorem elapsed_le_of_le {τ : Nat} (h : τ ≤ now) :
    (BitVec.ofNat 32 now - BitVec.ofNat 32 τ : Time).toNat ≤ now - τ := by
  rw [ofNat_sub_ofNat_of_le h, BitVec.toNat_ofNat]
  exact Nat.mod_le _ _

/-- An expiry of the watchdog takes the link Down at least 2000 ms of real time after the last frame. -/
theorem LinkRecord.of_expired (hs : LinkRecord last now s)
    (h : 2000 ≤ (BitVec.ofNat 32 now - s.tRx : Time).toNat) (hdown : t.linkUp = false) (htime : t.tRx = s.tRx) :
    LinkRecord last now t := by
  cases hs with
  | never => exact .never hdown
  | since hle hτ =>
    rw [hτ] at h
    have := elapsed_le_of_le hle
    exact .since hle (htime.trans hτ) (.inr (by omega))

/-- Every operation but `RST` keeps the record, with the frame it accepts, if any, as the last one. -/
theorem LinkRecord.of_exec (hs : LinkRecord last now s) (hrst : i ≠ .rst)
    (h : exec i (s.atTime (BitVec.ofNat 32 now)) = .next t) :
    LinkRecord (if acceptsFrame i s then some now else last) now t := by
  cases linkChange_of_exec h with
  | accepted haccepts hlink htime =>
    rw [if_pos (by simpa using haccepts)]
    exact .since le_rfl htime (.inl hlink)
  | expired hwdt helapsed hexpired =>
    subst hwdt hexpired
    exact hs.of_expired helapsed rfl rfl
  | reset hrst' => exact absurd hrst' hrst
  | kept hnot hkept =>
    rw [if_neg (by simpa using hnot)]
    exact hs.of_linkKept hkept

/-- A run in non-decreasing time without `RST` keeps the record, with its last accepted frame as the last one. -/
theorem LinkRecord.of_runOps (hs : LinkRecord last now s) (hops : ∀ op ∈ ops, op.2 ≠ .rst)
    (htimes : (now :: (ops.map Prod.fst ++ [w])).Pairwise (· ≤ ·)) (h : runOps (clocked ops) s = .next t) :
    LinkRecord ((acceptTimes ops s).getLast?.or last) w t := by
  induction ops generalizing last now s with
  | nil =>
    cases h
    exact hs.later (List.rel_of_pairwise_cons htimes (by simp))
  | cons op ops ih =>
    obtain ⟨now', i⟩ := op
    obtain ⟨u, hexec, hrun⟩ := (andThen_eq_next_iff _ _ _).1 h
    obtain ⟨hrst, hops⟩ := List.forall_mem_cons.1 hops
    have hu := (hs.later (List.rel_of_pairwise_cons htimes (by simp))).of_exec hrst hexec
    have hlast : (acceptTimes ((now', i) :: ops) s).getLast?.or last =
        (acceptTimes ops u).getLast?.or (if acceptsFrame i s then some now' else last) := by
      rw [acceptTimes_cons hexec, List.getLast?_append, Option.or_assoc]
      split_ifs <;> rfl
    rw [hlast]
    exact ih hu hops (List.pairwise_cons.1 htimes).2 hrun

/-- A `WDT` less than 2^32 ms after the last frame leaves the link Up exactly when that is less than 2000 ms. -/
theorem LinkRecord.linkUp_after_wdt (hs : LinkRecord last w s) (hwrap : ∀ τ, last = some τ → w - τ < 2 ^ 32)
    (h : exec .wdt (s.atTime (BitVec.ofNat 32 w)) = .next t) :
    t.linkUp = true ↔ ∃ τ, last = some τ ∧ w - τ < 2000 := by
  obtain ⟨-, rfl⟩ := (execWdt_eq_next_iff _ t).1 h
  rw [evaluateWatchdog_linkUp, linkAfterWatchdog_eq]
  cases hs with
  | never hdown => simp [hdown]
  | @since τ _ _ hle htime hlink =>
    have helapsed : (BitVec.ofNat 32 w - s.tRx : Time).toNat = w - τ := by
      rw [htime]
      exact elapsedTimeIsRightAcrossAWrap w τ hle (hwrap τ rfl)
    simp only [atTime_now, atTime_tRx, atTime_linkUp, helapsed, Option.some.injEq, exists_eq_left']
    split_ifs with hexpired
    · simpa using hexpired
    · exact iff_of_true (hlink.resolve_right (by omega)) (by omega)

theorem runOps_clocked_snoc (ops : List (Nat × Instr)) (i : Instr) (s t : State) :
    runOps (clocked (ops ++ [(w, i)])) s = .next t ↔
      ∃ u, runOps (clocked ops) s = .next u ∧ exec i (u.atTime (BitVec.ofNat 32 w)) = .next t := by
  rw [clocked, List.map_append, ← clocked, runOps_append, andThen_eq_next_iff, List.map_singleton]
  refine exists_congr fun u => and_congr_right fun _ => ?_
  rw [runOps_cons, andThen_eq_next_iff]
  simp

/-- The link after a run that ends in a `WDT`, by its last accepted frame or, where it has none, the one before it. -/
theorem LinkRecord.linkUp_after_runOps (hs : LinkRecord last now s) (hops : ∀ op ∈ ops, op.2 ≠ .rst)
    (htimes : (now :: (ops.map Prod.fst ++ [w])).Pairwise (· ≤ ·))
    (hwrap : ∀ τ, (acceptTimes ops s).getLast?.or last = some τ → w - τ < 2 ^ 32)
    (h : runOps (clocked (ops ++ [(w, .wdt)])) s = .next t) :
    t.linkUp = true ↔ ∃ τ, (acceptTimes ops s).getLast?.or last = some τ ∧ w - τ < 2000 := by
  obtain ⟨u, hrun, hwdt⟩ := (runOps_clocked_snoc ops .wdt s t).1 h
  exact (hs.of_runOps hops htimes hrun).linkUp_after_wdt hwrap hwdt

/-- Settles O31: a reset leaves the link Down, with no frame accepted yet. -/
theorem linkIsUpExactlyAfterARecentFrame : Obligations.LinkIsUpExactlyAfterARecentFrame := by
  intro s₀ s t ops w hreset hops htimes hwrap hrun
  obtain rfl := (execRst_eq_next_iff s₀ s).1 hreset
  have hs : LinkRecord none 0 { State.reset with txOut := s₀.txOut, events := s₀.events } := .never rfl
  have hall := List.pairwise_cons.2 ⟨fun _ _ => Nat.zero_le _, htimes⟩
  have hlink := hs.linkUp_after_runOps hops hall (by simpa only [Option.or_none] using hwrap) hrun
  simpa only [Option.or_none] using hlink

/-- The operations of a drain, each byte at its time. -/
abbrev drain (bytes : List (Nat × Byte)) : List (Nat × Instr) := bytes.map fun x => (x.1, Instr.rxb x.2)

/-- From a legal state in `P_RX`, a drain and its `WDT` run to their end. -/
theorem exists_runOps_drain_wdt (bytes : List (Nat × Byte)) (w : Nat) (hlegal : s.Legal) (hp : s.phase = .rx) :
    ∃ t, runOps (clocked (drain bytes ++ [(w, .wdt)])) s = .next t := by
  refine exists_runOps_eq_next (q := .input) hlegal ?_
  have hdrain := (loopRuns_bytes (bytes.map Prod.snd)).append LoopStep.wdt.loopRuns
  simpa [clocked, hp, Function.comp_def] using hdrain

/-- Among times none of which is before `τ`, the last accepted frame is not before `τ`. -/
theorem le_last_acceptTimes {τ : Nat} (h : ∀ op ∈ ops, τ ≤ op.1) : τ ≤ (acceptTimes ops s).getLast?.getD τ := by
  cases hlast : (acceptTimes ops s).getLast? with
  | none => exact le_rfl
  | some τ' =>
    obtain ⟨op, hop, rfl⟩ := List.mem_map.1 (mem_of_mem_acceptTimes (List.mem_of_getLast? hlast))
    exact h op hop

/-- Times in order between `τ` and `w` are in order with them put before and after. -/
theorem pairwise_le_between {τ : Nat} {times : List Nat} (hsorted : times.Pairwise (· ≤ ·)) (hle : τ ≤ w)
    (h : ∀ x ∈ times, τ ≤ x ∧ x ≤ w) : (τ :: (times ++ [w])).Pairwise (· ≤ ·) := by
  refine List.pairwise_cons.2 ⟨fun x hx => ?_,
    List.pairwise_append.2 ⟨hsorted, List.pairwise_singleton _ _, fun x hx y hy => ?_⟩⟩
  · rcases List.mem_append.1 hx with hx | hx
    · exact (h x hx).1
    · exact List.mem_singleton.1 hx ▸ hle
  · exact List.mem_singleton.1 hy ▸ (h x hx).2

/-- Settles O32: the last frame accepted before the `WDT` is the one at `τ` or a later one of the drain. -/
theorem acceptedFrameKeepsTheLinkUpThroughItsWatchdog :
    Obligations.AcceptedFrameKeepsTheLinkUpThroughItsWatchdog := by
  intro s τ w bytes hlegal hp hup htime hbytes hle hrecent hsorted
  obtain ⟨t, hrun⟩ := exists_runOps_drain_wdt bytes w hlegal hp
  have hs : LinkRecord (some τ) τ s := .since le_rfl htime (.inl hup)
  have hops : ∀ op ∈ drain bytes, op.2 ≠ .rst := List.forall_mem_map.2 fun _ _ => by simp
  have hbefore : ∀ op ∈ drain bytes, τ ≤ op.1 ∧ op.1 ≤ w := List.forall_mem_map.2 hbytes
  have hsorted' : ((drain bytes).map Prod.fst).Pairwise (· ≤ ·) := by simpa [Function.comp_def] using hsorted
  have htimes := pairwise_le_between hsorted' hle (List.forall_mem_map.2 hbefore)
  have hlast := le_last_acceptTimes (s := s) fun op hop => (hbefore op hop).1
  refine ⟨t, hrun, (hs.linkUp_after_runOps hops htimes ?_ hrun).2 ?_⟩
  · simp only [Option.or_some, Option.some.injEq]
    omega
  · exact ⟨_, Option.or_some, by omega⟩

end Sys2Proof.Machine
end

section
/-! The transmit check as a function of the state: what a due and an early `TXC` leave, and that neither reads the link
(42_periodic_transmitter.md R140, R141). -/

namespace Sys2Proof.Machine

variable {s : State}

/-- The state after a `TXC` that emits the frame of the request state. -/
def transmitted (s : State) : State := { emit (requestFrame s) s with tTx := s.now, phase := .rx }

@[simp] theorem transmitted_txOut (s : State) : (transmitted s).txOut = s.txOut ++ requestFrame s := rfl

/-- A due `TXC` with legal counters transmits. -/
theorem exec_txc_of_due (hp : s.phase = .input) (hdue : transmitDue s = true) (hcounters : countersLegal s = true) :
    exec .txc s = .next (transmitted s) :=
  (execTxc_eq_next_iff s _).2 ⟨hp, .inl ⟨hdue, hcounters, rfl⟩⟩

/-- An early `TXC` only ends the iteration. -/
theorem exec_txc_of_early (hp : s.phase = .input) (hearly : transmitDue s = false) :
    exec .txc s = .next { s with phase := .rx } :=
  (execTxc_eq_next_iff s _).2 ⟨hp, .inr ⟨hearly, rfl⟩⟩

/-- The frame of the request state, written out. -/
theorem requestFrame_eq (s : State) :
    requestFrame s = [bool2byte s.camReq, bool2byte s.micReq, s.plusCnt, s.minusCnt, s.shotCnt,
      bool2byte s.camReq ^^^ bool2byte s.micReq ^^^ s.plusCnt ^^^ s.minusCnt ^^^ s.shotCnt, 0xFE, 0xFF] :=
  encodeFrame_eq _ _ _ _ _

/-- Settles O23: the two outcomes of the period check, and the refusal of the loop-order table. -/
theorem txcFollowsItsRule : Obligations.TxcFollowsItsRule := by
  refine fun s => ⟨fun hp hdue hplus hminus hshot => ?_, fun hp hearly => ?_, fun hp => exec_eq_refused rfl hp nofun⟩
  · rw [exec_txc_of_due hp ((transmitDue_iff s).2 hdue) ((countersLegal_iff s).2 ⟨hplus, hminus, hshot⟩),
      transmitted, requestFrame_eq]
    rfl
  · exact exec_txc_of_early hp ((elapsedAtLeast_eq_false_iff _ _ _).2 hearly)

/-- `TXC` neither reads nor writes the link: with another link state it answers the same, with that link state kept. -/
theorem execTxc_withLink (s : State) (up : Bool) :
    execTxc { s with linkUp := up } = andThen (execTxc s) fun t => .next { t with linkUp := up } := by
  have hdue : transmitDue { s with linkUp := up } = transmitDue s := rfl
  have hlegal : countersLegal { s with linkUp := up } = countersLegal s := rfl
  rw [execTxc, execTxc, andThen_requirePhase, hdue, fire, fire, hlegal]
  cases transmitDue s
  · rfl
  · cases countersLegal s <;> rfl

/-- Settles O25: each of the three outcomes is kept. -/
theorem transmissionIgnoresTheLink : Obligations.TransmissionIgnoresTheLink := by
  intro s up
  have hsame : exec .txc { s with linkUp := up } = andThen (exec .txc s) fun t => .next { t with linkUp := up } :=
    execTxc_withLink s up
  refine ⟨fun t h => ?_, fun r h => ?_, fun r h => ?_⟩
  · rw [hsame, h, andThen_next]
  · rw [hsame, h, andThen_fault]
  · rw [hsame, h, andThen_refused]

end Sys2Proof.Machine
end

section
/-! The receive path and the request state (42_periodic_transmitter.md R144, 43_request_state.md R157). -/

namespace Sys2Proof.Machine

/-- The state with other values in the five request registers. -/
def State.withRequests (s : State) (cr mr : Bool) (p n c : Byte) : State :=
  { s with camReq := cr, micReq := mr, plusCnt := p, minusCnt := n, shotCnt := c }

variable {s t : State}

/-- A received byte has the same outcome whatever is requested. -/
theorem execRxb_withRequests {b : Byte} (h : execRxb b s = .next t) (cr mr : Bool) (p n c : Byte) :
    execRxb b (s.withRequests cr mr p n c) = .next (t.withRequests cr mr p n c) := by
  obtain ⟨hp, hcase⟩ := (execRxb_eq_next_iff b s t).1 h
  refine (execRxb_eq_next_iff b _ _).2 ⟨hp, ?_⟩
  rcases hcase with ⟨hprev, hb, hpass, rfl⟩ | ⟨hprev, hb, hfail, rfl⟩ | ⟨hb, hcur, rfl⟩
  · exact .inl ⟨hprev, hb, hpass, rfl⟩
  · exact .inr (.inl ⟨hprev, hb, hfail, rfl⟩)
  · exact .inr (.inr ⟨hb, hcur, rfl⟩)

/-- The watchdog has the same outcome whatever is requested. -/
theorem execWdt_withRequests (h : execWdt s = .next t) (cr mr : Bool) (p n c : Byte) :
    execWdt (s.withRequests cr mr p n c) = .next (t.withRequests cr mr p n c) := by
  obtain ⟨hp, rfl⟩ := (execWdt_eq_next_iff s t).1 h
  exact (execWdt_eq_next_iff _ _).2 ⟨hp, rfl⟩

/-- Settles O38: neither operation writes a request register, nor does its outcome depend on one. -/
theorem receivePathIgnoresTheRequestState : Obligations.ReceivePathIgnoresTheRequestState := by
  rintro i s t cr mr p n c (⟨b, rfl⟩ | rfl) h
  · obtain ⟨-, hcam, hmic, hplus, hminus, hshot, -⟩ := execRxb_frame h
    exact ⟨hcam, hmic, hplus, hminus, hshot, execRxb_withRequests h cr mr p n c⟩
  · obtain ⟨-, rfl⟩ := (execWdt_eq_next_iff s t).1 h
    exact ⟨rfl, rfl, rfl, rfl, rfl, execWdt_withRequests h cr mr p n c⟩

end Sys2Proof.Machine
end

section
/-! The presses of one iteration, and the frame that reports them (42_periodic_transmitter.md R142, 43_request_state.md
R150 to R155). -/

namespace Sys2Proof.Machine

variable {i : Instr} {is js : List Instr} {s t u : State}

/-- The state after a press: its own register advances (43_request_state.md R150 to R154). -/
def pressed (i : Instr) (s : State) : State :=
  { s with
    camReq := if i = .btnCam then !s.camReq else s.camReq
    micReq := if i = .btnMic then !s.micReq else s.micReq
    plusCnt := if i = .btnPlus then inc254 s.plusCnt else s.plusCnt
    minusCnt := if i = .btnMinus then inc254 s.minusCnt else s.minusCnt
    shotCnt := if i = .btnShot then inc254 s.shotCnt else s.shotCnt }

/-- In `P_IN`, a press answers the state `pressed` gives. -/
theorem exec_button_eq_pressed (hi : isButton i = true) (hp : s.phase = .input) :
    exec i s = .next (pressed i s) := by
  cases i with
  | rxb | wdt | txc | rst => cases hi
  | btnCam | btnMic | btnPlus | btnMinus | btnShot => exact requirePhase_of_eq hp _

theorem toggle_toNat (i j : Instr) (req : Bool) :
    (if i = j then !req else req).toNat = (req.toNat + [i].count j) % 2 := by
  by_cases h : i = j <;> cases req <;> simp [h]

theorem advance_toNat (i j : Instr) {c : Byte} (hc : c.toNat ≤ 253) :
    (if i = j then inc254 c else c).toNat = (c.toNat + [i].count j) % 254 := by
  by_cases h : i = j
  · simp [h, inc254_toNat hc]
  · simp [h, Nat.mod_eq_of_lt (Nat.lt_succ_of_le hc)]

/-- From `s` to `t` the requests are inverted and the counters advanced once for each press in `is`, in a sampling
phase that neither ends nor transmits. -/
structure Reported (is : List Instr) (s t : State) : Prop where
  phase : t.phase = s.phase
  tTx : t.tTx = s.tTx
  txOut : t.txOut = s.txOut
  camReq : t.camReq.toNat = (s.camReq.toNat + is.count .btnCam) % 2
  micReq : t.micReq.toNat = (s.micReq.toNat + is.count .btnMic) % 2
  plusCnt : t.plusCnt.toNat = (s.plusCnt.toNat + is.count .btnPlus) % 254
  minusCnt : t.minusCnt.toNat = (s.minusCnt.toNat + is.count .btnMinus) % 254
  shotCnt : t.shotCnt.toNat = (s.shotCnt.toNat + is.count .btnShot) % 254

theorem Reported.nil (hs : s.Legal) : Reported [] s s := by
  obtain ⟨-, -, hplus, hminus, hshot⟩ := hs
  have hreq (req : Bool) : req.toNat = req.toNat % 2 := (Nat.mod_eq_of_lt req.toNat_lt).symm
  have hcnt {c : Byte} (hc : c.toNat ≤ 253) : c.toNat = c.toNat % 254 := (Nat.mod_eq_of_lt (Nat.lt_succ_of_le hc)).symm
  exact ⟨rfl, rfl, rfl, hreq _, hreq _, hcnt hplus, hcnt hminus, hcnt hshot⟩

theorem Reported.of_press (i : Instr) (now : Time) (hs : s.Legal) : Reported [i] s (pressed i (s.atTime now)) := by
  obtain ⟨-, -, hplus, hminus, hshot⟩ := hs
  exact ⟨rfl, rfl, rfl, toggle_toNat i _ _, toggle_toNat i _ _, advance_toNat i _ hplus, advance_toNat i _ hminus,
    advance_toNat i _ hshot⟩

theorem Reported.append (h : Reported is s t) (h' : Reported js t u) : Reported (is ++ js) s u where
  phase := h'.phase.trans h.phase
  tTx := h'.tTx.trans h.tTx
  txOut := h'.txOut.trans h.txOut
  camReq := by rw [h'.camReq, h.camReq, List.count_append, Nat.mod_add_mod, Nat.add_assoc]
  micReq := by rw [h'.micReq, h.micReq, List.count_append, Nat.mod_add_mod, Nat.add_assoc]
  plusCnt := by rw [h'.plusCnt, h.plusCnt, List.count_append, Nat.mod_add_mod, Nat.add_assoc]
  minusCnt := by rw [h'.minusCnt, h.minusCnt, List.count_append, Nat.mod_add_mod, Nat.add_assoc]
  shotCnt := by rw [h'.shotCnt, h.shotCnt, List.count_append, Nat.mod_add_mod, Nat.add_assoc]

/-- Presses in `P_IN` from a legal state run to their end, each reported in a register. -/
theorem exists_runOps_presses {presses : List (Time × Instr)} (hpresses : ∀ op ∈ presses, isButton op.2 = true)
    (hs : s.Legal) (hp : s.phase = .input) :
    ∃ t, runOps presses s = .next t ∧ t.Legal ∧ Reported (presses.map Prod.snd) s t := by
  induction presses generalizing s with
  | nil => exact ⟨s, rfl, hs, .nil hs⟩
  | cons op presses ih =>
    obtain ⟨now, i⟩ := op
    obtain ⟨hi, hpresses⟩ := List.forall_mem_cons.1 hpresses
    have hexec := exec_button_eq_pressed (s := s.atTime now) hi hp
    obtain ⟨t, hrun, ht, hreported⟩ := ih hpresses (exec_keeps_legal (s := s.atTime now) hs hexec) hp
    refine ⟨t, ?_, ht, (Reported.of_press i now hs).append hreported⟩
    rw [runOps_cons, hexec, andThen_next, hrun]

theorem bool2byte_toNat (x : Bool) : (bool2byte x).toNat = x.toNat := by cases x <;> rfl

/-- Settles O26: the frame is that of the request state the presses leave. -/
theorem frameReportsEveryPressOfItsIteration : Obligations.FrameReportsEveryPressOfItsIteration := by
  intro presses now s hs hp hpresses helapsed
  obtain ⟨u, hrun, ⟨-, -, hcounters⟩, hu⟩ := exists_runOps_presses hpresses hs hp
  have hdue : transmitDue (u.atTime now) = true := (transmitDue_iff _).2 (hu.tTx ▸ helapsed)
  have htxc := exec_txc_of_due (s := u.atTime now) (hu.phase.trans hp) hdue ((countersLegal_iff u).2 hcounters)
  refine ⟨transmitted (u.atTime now), bool2byte u.camReq, bool2byte u.micReq, u.plusCnt, u.minusCnt, u.shotCnt, ?_, ?_,
    (bool2byte_toNat _).trans hu.camReq, (bool2byte_toNat _).trans hu.micReq, hu.plusCnt, hu.minusCnt, hu.shotCnt⟩
  · rw [runOps_append, hrun, andThen_next, runOps_cons, htxc, andThen_next, runOps_nil]
  · rw [← hu.txOut]
    exact congrArg (u.txOut ++ ·) (requestFrame_eq u)

end Sys2Proof.Machine
end

section
/-! The times of a run's frames, and how far apart they are (42_periodic_transmitter.md R143). -/

namespace Sys2Proof.Machine

variable {i : Instr} {s t : State} {before now : Nat} {ops : List (Nat × Instr)}

/-- A run whose first operation makes the output grow has its time first. -/
theorem emitTimes_cons_of_lt (h : exec i (s.atTime (BitVec.ofNat 32 now)) = .next t)
    (hgrew : s.txOut.length < t.txOut.length) : emitTimes ((now, i) :: ops) s = now :: emitTimes ops t := by
  simp only [emitTimes, h, if_pos hgrew]

/-- A run whose first operation leaves the output has the frames of the rest. -/
theorem emitTimes_cons_of_eq (h : exec i (s.atTime (BitVec.ofNat 32 now)) = .next t) (hout : t.txOut = s.txOut) :
    emitTimes ((now, i) :: ops) s = emitTimes ops t := by
  simp only [emitTimes, h, hout, lt_irrefl, if_false]

theorem length_txOut_lt_transmitted (s : State) : s.txOut.length < (transmitted s).txOut.length := by
  simp [requestFrame_eq]

/-- An operation other than `RST` either emits a frame, at least 500 ms after the last one by the time base and with
its time noted, or leaves the output and the time of the last frame as they were. -/
theorem emits_or_keeps_of_exec (h : exec i s = .next t) (hrst : i ≠ .rst) :
    (s.txOut.length < t.txOut.length ∧ 500 ≤ (s.now - s.tTx).toNat ∧ t.tTx = s.now) ∨
      (t.txOut = s.txOut ∧ t.tTx = s.tTx) := by
  by_cases htxc : i = .txc
  · subst htxc
    obtain ⟨-, ⟨hdue, -, rfl⟩ | ⟨-, rfl⟩⟩ := (execTxc_eq_next_iff s t).1 h
    · exact .inl ⟨length_txOut_lt_transmitted s, (transmitDue_iff s).1 hdue, rfl⟩
    · exact .inr ⟨rfl, rfl⟩
  · obtain ⟨-, -, hkept, -⟩ := registersAreWrittenOnlyByTheirOperations i s t h hrst
    exact .inr (hkept htxc).symm

/-- The last frame before a run without `RST` in non-decreasing real time, and the frames of the run, are pairwise at
least 500 ms apart. -/
theorem pairwise_emitTimes (hlast : s.tTx = BitVec.ofNat 32 before) (hops : ∀ op ∈ ops, op.2 ≠ .rst)
    (htimes : (before :: ops.map Prod.fst).Pairwise (· ≤ ·)) :
    (before :: emitTimes ops s).Pairwise (fun a b => a + 500 ≤ b) := by
  induction ops generalizing s before with
  | nil => exact List.pairwise_singleton _ _
  | cons op ops ih =>
    obtain ⟨now, i⟩ := op
    obtain ⟨hrst, hops⟩ := List.forall_mem_cons.1 hops
    cases hexec : exec i (s.atTime (BitVec.ofNat 32 now)) with
    | next t =>
      rcases emits_or_keeps_of_exec hexec hrst with ⟨hgrew, helapsed, hnow⟩ | ⟨hout, hkept⟩
      · have hapart : before + 500 ≤ now := by
          have hle : before ≤ now := List.rel_of_pairwise_cons htimes (by simp)
          have hreal := elapsed_le_of_le hle
          rw [atTime_now, atTime_tTx, hlast] at helapsed
          omega
        have hafter := ih hnow hops (List.pairwise_cons.1 htimes).2
        rw [emitTimes_cons_of_lt hexec hgrew]
        refine List.pairwise_cons.2 ⟨List.forall_mem_cons.2 ⟨hapart, fun b hb => ?_⟩, hafter⟩
        have := List.rel_of_pairwise_cons hafter hb
        omega
      · rw [emitTimes_cons_of_eq hexec hout]
        exact ih (hkept.trans hlast) hops (htimes.sublist ((List.sublist_cons_self now _).cons_cons before))
    | fault r => simp [emitTimes, hexec]
    | refused r => simp [emitTimes, hexec]

/-- A `TXC` of a legal state in `P_IN`, from 500 ms and less than 2^32 ms after the last frame, emits one. -/
theorem emitTimes_txc (hs : s.Legal) (hp : s.phase = .input) (hlast : s.tTx = BitVec.ofNat 32 before)
    (hle : before + 500 ≤ now) (hwrap : now - before < 2 ^ 32) : emitTimes [(now, .txc)] s = [now] := by
  obtain ⟨-, -, hcounters⟩ := hs
  have helapsed : (BitVec.ofNat 32 now - s.tTx : Time).toNat = now - before := by
    rw [hlast]
    exact elapsedTimeIsRightAcrossAWrap now before (by omega) hwrap
  have hdue : transmitDue (s.atTime (BitVec.ofNat 32 now)) = true := by
    rw [transmitDue_iff, atTime_now, atTime_tTx, helapsed]
    omega
  have htxc := exec_txc_of_due (s := s.atTime (BitVec.ofNat 32 now)) hp hdue ((countersLegal_iff s).2 hcounters)
  exact emitTimes_cons_of_lt htxc (length_txOut_lt_transmitted (s.atTime (BitVec.ofNat 32 now)))

/-- Settles O27: each emitting `TXC` keeps the distance to the frame before it, and one that is due emits. -/
theorem framesAreAtLeastThePeriodApart : Obligations.FramesAreAtLeastThePeriodApart :=
  ⟨fun _ _ _ => pairwise_emitTimes, fun _ _ _ => emitTimes_txc⟩

end Sys2Proof.Machine
end

section
/-! Each button's next state and refusal (43_request_state.md R150 to R155). -/

namespace Sys2Proof.Machine

/-- The counter step with its modulus written out, as 43_request_state.md R155 gives it. -/
theorem inc254_eq (c : Byte) : inc254 c = if c.toNat + 1 ≥ 254 then 0 else c + 1 := rfl

/-- Settles O36: in `P_IN` the next state each rule writes out, in `P_RX` the refusal of the loop-order table. -/
theorem toggleButtonsInvertTheirRequest : Obligations.ToggleButtonsInvertTheirRequest := by
  refine fun s => ⟨fun hp => ⟨?_, ?_⟩, fun hp => ⟨exec_eq_refused rfl hp nofun, exec_eq_refused rfl hp nofun⟩⟩
  · exact (execBtnCam_eq_next_iff s _).2 ⟨hp, rfl⟩
  · exact (execBtnMic_eq_next_iff s _).2 ⟨hp, rfl⟩

/-- Settles O37: in `P_IN` the next state each rule writes out, in `P_RX` the refusal of the loop-order table. -/
theorem counterButtonsIncrementTheirCounter : Obligations.CounterButtonsIncrementTheirCounter := by
  intro s
  simp only [← inc254_eq]
  refine ⟨fun hp => ⟨?_, ?_, ?_⟩, fun hp =>
    ⟨exec_eq_refused rfl hp nofun, exec_eq_refused rfl hp nofun, exec_eq_refused rfl hp nofun⟩⟩
  · exact (execBtnPlus_eq_next_iff s _).2 ⟨hp, rfl⟩
  · exact (execBtnMinus_eq_next_iff s _).2 ⟨hp, rfl⟩
  · exact (execBtnShot_eq_next_iff s _).2 ⟨hp, rfl⟩

end Sys2Proof.Machine
end

section
/-! No step from a legal state faults (60_exceptions.md R170, 20_memory.md R51): the two faults of the model are a store
outside the scan buffer and a reserved counter about to be emitted, and the bounds of 10_state.md R39 exclude both. -/

namespace Sys2Proof.Machine

variable {s : State}

/-- What answers a next state in its phase does not fault. -/
theorem requirePhase_next_ne_fault (p : Phase) (s t : State) (r : Fault) : requirePhase p s (.next t) ≠ .fault r := by
  rw [ne_eq, requirePhase_eq_fault_iff]
  exact fun ⟨_, h⟩ => nomatch h

/-- With the cursor inside the buffer, `RXB` does not fault. -/
theorem execRxb_ne_fault (b : Byte) (hcur : s.rxCur.toNat ≤ 4) (r : Fault) : execRxb b s ≠ .fault r := by
  rw [ne_eq, execRxb_eq_fault_iff]
  exact fun ⟨_, _, hout, _⟩ => Nat.not_lt.2 hcur hout

/-- With counters the encoding can carry, `TXC` does not fault. -/
theorem execTxc_ne_fault (hcounters : countersLegal s = true) (r : Fault) : execTxc s ≠ .fault r := by
  rw [ne_eq, execTxc_eq_fault_iff, hcounters]
  exact fun ⟨_, _, hreserved, _⟩ => nomatch hreserved

/-- No operation faults from a legal state. -/
theorem exec_ne_fault_of_legal (i : Instr) (hs : s.Legal) (r : Fault) : exec i s ≠ .fault r := by
  obtain ⟨-, hcur, hcounters⟩ := hs
  cases i with
  | rxb b => exact execRxb_ne_fault b hcur r
  | txc => exact execTxc_ne_fault ((countersLegal_iff s).2 hcounters) r
  | rst => exact nofun
  | wdt | btnCam | btnMic | btnPlus | btnMinus | btnShot => exact requirePhase_next_ne_fault _ s _ r

/-- A step faults only where the operation it takes faults: the idle step and a word that is no operation do not. -/
theorem step_eq_fault_iff (s : State) (r : Fault) :
    step s = .fault r ↔ ∃ e rest i, s.events = e :: rest ∧ decode e.word = .op i ∧
      exec i (State.atTime { s with events := rest } e.now) = .fault r := by
  cases h : s.events with
  | nil => simp [step, takeEvent_of_nil h, idle]
  | cons e rest =>
    simp only [step, takeEvent_of_cons h, present]
    cases hd : decode e.word <;> simp [hd]

/-- Settles O43: the operation a step takes runs from a legal state, at the event's time. -/
theorem legalStatesNeverFault : Obligations.LegalStatesNeverFault := by
  intro s r hs hfault
  obtain ⟨e, rest, i, -, -, hexec⟩ := (step_eq_fault_iff s r).1 hfault
  have hlegal : (State.atTime { s with events := rest } e.now).Legal := hs
  exact exec_ne_fault_of_legal i hlegal r hexec

end Sys2Proof.Machine
end

section
/-! Reset, and what a run after it emits while nothing is requested (70_reset_and_hazards.md R190, R191). -/

namespace Sys2Proof.Machine

variable {i : Instr} {s t : State} {ops : List (Nat × Instr)}

/-- Settles O39: `RST` answers the reset state with the output and the pending events kept. -/
theorem rstEstablishesEveryRegister : Obligations.RstEstablishesEveryRegister :=
  fun s => ⟨(execRst_eq_next_iff s _).2 rfl, Memory.read_nil⟩

/-- The five request registers are at their reset values. -/
abbrev State.Unrequested (s : State) : Prop :=
  s.camReq = false ∧ s.micReq = false ∧ s.plusCnt = 0 ∧ s.minusCnt = 0 ∧ s.shotCnt = 0

/-- The outbound frame R191 writes out. -/
abbrev zeroFrame : List Byte := [0, 0, 0, 0, 0, 0, 0xFE, 0xFF]

theorem requestFrame_of_unrequested (hs : s.Unrequested) : requestFrame s = zeroFrame := by
  obtain ⟨hcam, hmic, hplus, hminus, hshot⟩ := hs
  rw [requestFrame, hcam, hmic, hplus, hminus, hshot]
  rfl

/-- Only a press or `RST` writes a request register. -/
theorem exec_keeps_unrequested (hs : s.Unrequested) (hrst : i ≠ .rst) (hbutton : isButton i = false)
    (h : exec i s = .next t) : t.Unrequested := by
  have hne {j : Instr} (hj : isButton j = true) : i ≠ j := fun hij => by simp [hij, hj] at hbutton
  obtain ⟨-, -, -, hcam, hmic, hplus, hminus, hshot, -⟩ := registersAreWrittenOnlyByTheirOperations i s t h hrst
  rwa [State.Unrequested, hcam (hne rfl), hmic (hne rfl), hplus (hne rfl), hminus (hne rfl), hshot (hne rfl)]

/-- While nothing is requested, an operation other than `RST` keeps the output or appends the frame of zeros. -/
theorem exec_txOut_of_unrequested (hs : s.Unrequested) (hrst : i ≠ .rst) (h : exec i s = .next t) :
    t.txOut = s.txOut ∨ t.txOut = s.txOut ++ zeroFrame := by
  by_cases htxc : i = .txc
  · subst htxc
    obtain ⟨-, ⟨-, -, rfl⟩ | ⟨-, rfl⟩⟩ := (execTxc_eq_next_iff s t).1 h
    · exact .inr (congrArg (s.txOut ++ ·) (requestFrame_of_unrequested hs))
    · exact .inl rfl
  · obtain ⟨-, -, hkept, -⟩ := registersAreWrittenOnlyByTheirOperations i s t h hrst
    exact .inl (hkept htxc).2

/-- A run without press or `RST`, begun with nothing requested, appends one frame of zeros at each of its frame
times. -/
theorem runOps_txOut_of_unrequested (hs : s.Unrequested) (hops : ∀ op ∈ ops, op.2 ≠ .rst ∧ isButton op.2 = false)
    (h : runOps (clocked ops) s = .next t) :
    t.txOut = s.txOut ++ (List.replicate (emitTimes ops s).length zeroFrame).flatten := by
  induction ops generalizing s with
  | nil =>
    cases h
    exact (List.append_nil _).symm
  | cons op ops ih =>
    obtain ⟨now, i⟩ := op
    obtain ⟨u, hexec, hrun⟩ := (andThen_eq_next_iff _ _ _).1 h
    obtain ⟨⟨hrst, hbutton⟩, hops⟩ := List.forall_mem_cons.1 hops
    have hs' : (s.atTime (BitVec.ofNat 32 now)).Unrequested := hs
    have hrest := ih (exec_keeps_unrequested hs' hrst hbutton hexec) hops hrun
    rcases exec_txOut_of_unrequested hs' hrst hexec with hkept | hgrew
    · rw [emitTimes_cons_of_eq hexec hkept, hrest, hkept, atTime_txOut]
    · have hlt : s.txOut.length < u.txOut.length := by simp [hgrew]
      rw [emitTimes_cons_of_lt hexec hlt, hrest, hgrew, atTime_txOut, List.length_cons, List.replicate_succ,
        List.flatten_cons, List.append_assoc]

/-- Settles O40: `t_tx` is 0 at reset, as if the last frame had left at time 0, and nothing is requested. -/
theorem framesAfterResetCarryZeros : Obligations.FramesAfterResetCarryZeros := by
  intro ops t hops htimes hrun
  have hfromZero : (0 :: ops.map Prod.fst).Pairwise (· ≤ ·) := List.pairwise_cons.2 ⟨fun τ _ => τ.zero_le, htimes⟩
  have hapart := pairwise_emitTimes (s := State.reset) rfl (fun op hop => (hops op hop).1) hfromZero
  refine ⟨fun τ hτ => ?_, ?_⟩
  · simpa using List.rel_of_pairwise_cons hapart hτ
  · exact runOps_txOut_of_unrequested ⟨rfl, rfl, rfl, rfl, rfl⟩ hops hrun

end Sys2Proof.Machine
end
